-- ==== Sys2Proof/Word.lean ====
section
/-! DEFINITION. The word and byte types of the HSE: every register is 32 bits wide (spec/10_state.md), a message is a
sequence of 8-bit values (R10). -/

namespace Sys2Proof

/-- A 32-bit register or bus data word (R8: the bus data width is 32 bits). -/
abbrev Word := BitVec 32

/-- A message byte (R10). -/
abbrev Byte := BitVec 8

end Sys2Proof
end

