-- ==== Sys2Proof/Config.lean ====
section
/-! DEFINITION. What one build of the HSE fixes (the parameters of R6), the constants of R8, and the free values (the
draws of R13). -/

namespace Sys2Proof

/-- The codeword sizing rule of a build: `REF` (R146) or `FIT` (R147). -/
inductive Sizing where
  | ref
  | fit
deriving DecidableEq, Repr

/-- The three parameters of R6, fixed for the life of the block (R31). -/
structure Params where
  /-- `MAX_BYTES`: the capacity of the payload buffer in bytes (R6a). -/
  maxBytes : Nat
  /-- `SIZING` (R6b). -/
  sizing : Sizing
  /-- `BASE`: the bus address of the register window (R6c). -/
  base : Nat
deriving DecidableEq, Repr

/-- The parameters `State.reset` is built with. DESIGN CHOICE, log 1, unsafe for a claim about `State.reset` alone: the
spec leaves all three open; the values are those of the programs of spec/95_test_vectors.md section 3 with the first
SIZING. Statements about every state range over every value of the parameters. -/
def Config.params : Params := { maxBytes := 16, sizing := .ref, base := 0 }

/-- `HDR_DATA_BITS` (R8): how many bits of length the header carries. -/
def Config.hdrDataBits : Nat := 11

/-- `HDR_BITS` (R8): the length of the header codeword. -/
def Config.hdrBits : Nat := 16

/-- The largest length the header carries (R8, R140: "the length must fit in 11 bits (0–2047)"). -/
def Config.maxLen : Nat := 2047

/-- The size in bytes of the register window (R70). -/
def Config.windowBytes : Nat := 0x2000

/-- A 32-bit draw (R13, R241). FREE VALUE (log 6): it has no value that can be proved; each draw uses a fresh index. -/
opaque Config.freeWord : Nat → Word

/-- An 8-bit draw (R13, R50, R181). FREE VALUE (log 6): it has no value that can be proved; each draw uses a fresh
index. -/
opaque Config.freeByte : Nat → Byte

end Sys2Proof
end

