-- ==== Sys2Proof/Syntax.lean ====
section
/-! DEFINITION. The commands of the HSE, one constructor per row of spec/opcode_table.json, and the one command word
format CMD32 (R100). -/

namespace Sys2Proof

/-- The three commands (R101). No operand stands in the command word (R102). -/
inductive Instr where
  /-- `ENC_HDR` (R171): encode the header of the length in LEN_IN. -/
  | encHdr
  /-- `ENC_PAY` (R172): encode the payload codeword of the first PLEN bytes of PBUF. -/
  | encPay
  /-- `ENC_MSG` (R173): encode header and payload of the first PLEN bytes of PBUF. -/
  | encMsg
deriving DecidableEq, Repr

/-- The fields of a CMD32 command word (R100). -/
structure Cmd32 where
  /-- OP, bits 3:0. -/
  op : BitVec 4
  /-- RSV, bits 31:4, which must be 0 (R103). -/
  rsv : BitVec 28
deriving DecidableEq, Repr

end Sys2Proof
end

