-- ==== Sys2Proof/WellFormed.lean ====
section
/-! DEFINITION. What a well-formed command, command word and build are. -/

namespace Sys2Proof

/-- Every command is well-formed: it has no operand field that could be out of range (R100, R102). -/
def Instr.wf : Instr → Bool
  | .encHdr => true
  | .encPay => true
  | .encMsg => true

/-- A legal command word (R104): RSV is 0 and OP is 1, 2 or 3. -/
def Cmd32.wf (c : Cmd32) : Bool :=
  c.rsv == 0 && (c.op == 1 || c.op == 2 || c.op == 3)

/-- A legal build (R6): `1 <= MAX_BYTES <= 2047` and `BASE` a multiple of 0x2000. -/
def Params.wf (p : Params) : Bool :=
  decide (1 ≤ p.maxBytes) && decide (p.maxBytes ≤ Config.maxLen) && decide (p.base % Config.windowBytes = 0)

end Sys2Proof
end

