-- ==== Sys2Proof/Decode.lean ====
section
/-! DEFINITION. Decoding a command word (R100 to R105), total on every 32-bit word and refusing an illegal one by name;
the encoder after it. -/

namespace Sys2Proof

/-- Why a command word is illegal (R103, R104). The HSE does not tell the two apart: both raise IllegalCommand (R203). -/
inductive Illegal where
  /-- A reserved bit of bits 31:4 is 1 (R103). -/
  | reservedBits
  /-- OP is 0 or 4 to 15 (R101, R104). -/
  | unassignedOp
deriving DecidableEq, Repr

/-- The fields of a command word (R100). -/
def wordFields (v : Word) : Cmd32 :=
  { op := v.extractLsb' 0 4, rsv := v.extractLsb' 4 28 }

/-- The command an OP value selects (R101). -/
def decodeOp (op : BitVec 4) : Except Illegal Instr :=
  if op = 0x1#4 then .ok .encHdr
  else if op = 0x2#4 then .ok .encPay
  else if op = 0x3#4 then .ok .encMsg
  else .error .unassignedOp

/-- Decoding a command word, by its fields (R100, R101, R103, R104). R105 says the same by whole words. -/
def decode (v : Word) : Except Illegal Instr :=
  let c := wordFields v
  if c.rsv = 0 then decodeOp c.op else .error .reservedBits

/-- The OP value of a command (R101). -/
def opOf : Instr → BitVec 4
  | .encHdr => 0x1#4
  | .encPay => 0x2#4
  | .encMsg => 0x3#4

/-- The command word with the given fields (R100). -/
def assemble (c : Cmd32) : Word := c.rsv ++ c.op

/-- The command word of a command (R101). -/
def encode (i : Instr) : Word := assemble { op := opOf i, rsv := 0 }

/-- The command the decoder reads from a table word of `nbits` bits (bit 0 least significant); every bit above `nbits`
is 0, and a word that does not fit the 32-bit CMD register is none (log 18). -/
def decodeTableWord (nbits w : Nat) : Option Instr :=
  let v := w % 2 ^ nbits
  if v < 2 ^ 32 then
    match decode (BitVec.ofNat 32 v) with
    | .ok i => some i
    | .error _ => none
  else none

end Sys2Proof
end

