-- ==== Sys2Proof/Machine/Bits.lean ====
section
/-! DEFINITION. Bit lists, their packing into words, and the exclusive or over a set of indices (R9 to R11, R79, R80,
R120, R124, R125). -/

namespace Sys2Proof.Machine

open Sys2Proof

/-- The element at index `i` of a bit sequence. No rule reads an index past the end (R10); the model's totality value
there is `false`. -/
def bitAt (c : List Bool) (i : Nat) : Bool := c.getD i false

/-- `XOR{ e(i) : i in S }` (R11), over the elements of a list that holds each element of `S` once. -/
def xorOver (S : List Nat) (e : Nat → Bool) : Bool :=
  S.foldr (fun i acc => e i ^^ acc) false

/-- The exclusive or of the bits of a sequence at the indices `sel` picks, the head standing at index `i`. -/
def xorPicked (sel : Nat → Bool) : Nat → List Bool → Bool
  | _, [] => false
  | i, b :: bs => (sel i && b) ^^ xorPicked sel (i + 1) bs

/-- `Bits8(b)` (R120): the bits of a byte, most significant first. -/
def bits8 (b : Byte) : List Bool := (List.range 8).map (fun t => b.getLsbD (7 - t))

/-- `MsgBits(m)` (R124, R79): the bits of the bytes in byte order. -/
def msgBits (m : List Byte) : List Bool := m.flatMap bits8

/-- `Bits11(len)` (R125): the low 11 bits of a length, most significant first. -/
def bits11 (len : Nat) : List Bool :=
  (List.range Config.hdrDataBits).map (fun t => len.testBit (Config.hdrDataBits - 1 - t))

/-- The number whose bit `i` is element `i` of the sequence. -/
def packNat : List Bool → Nat
  | [] => 0
  | b :: bs => b.toNat + 2 * packNat bs

/-- The register image of a bit sequence (R80): sequence index `i` is register bit `i`. -/
def packBits (w : Nat) (c : List Bool) : BitVec w := BitVec.ofNat w (packNat c)

/-- Lane `t` of a bus word (R49, R78): bits `8t+7 : 8t`. -/
def lane (v : Word) (t : Nat) : Byte := v.extractLsb' (8 * t) 8

/-- The bus word with the given lanes, lane 0 lowest (R49, R78). -/
def fromLanes (b0 b1 b2 b3 : Byte) : Word := b3 ++ b2 ++ b1 ++ b0

end Sys2Proof.Machine
end

