-- ==== Sys2Proof/Machine/Encoder.lean ====
section
/-! DEFINITION. The encoding functions of spec/40_core_functions.md: positions, the block construction HBlock with its
covering-set XOR tree, the LengthEncoder, and the PayloadEncoder with its sizing. -/

namespace Sys2Proof.Machine

open Sys2Proof

/-- "An index `i >= 1` is a power of two when `i = 2^k`" (R121). -/
def isPow2 (i : Nat) : Bool := 2 ^ i.log2 == i

/-- A data position (R121): neither 0 nor a power of two. -/
def isData (i : Nat) : Bool := i != 0 && !isPow2 i

/-- `DataPos(L)` (R121). -/
def dataPos (L : Nat) : List Nat := (List.range L).filter isData

/-- `PPos(L)` (R122): the powers of two below `L`, ascending. -/
def ppos (L : Nat) : List Nat := (List.range L).filter isPow2

/-- `Cap(L)` (R123). -/
def cap (L : Nat) : Nat := (dataPos L).length

/-- Whether parity position `p = 2^k` covers index `i` (R132): `0 < i`, `i != p`, `i[k] = 1`. -/
def covers (p i : Nat) : Bool := decide (0 < i) && i != p && i.testBit p.log2

/-- `Cover(p, L)` (R132). -/
def cover (p L : Nat) : List Nat := (List.range L).filter (covers p)

/-- Data placement (R130, R137) from index `i` on, `k` indices in all: a data position takes the next data bit, or 0
once they are used up; index 0 and the parity positions hold the placeholder 0. -/
def placeFrom : Nat → Nat → List Bool → List Bool
  | 0, _, _ => []
  | k + 1, i, d =>
    if isData i then d.headD false :: placeFrom k (i + 1) d.tail
    else false :: placeFrom k (i + 1) d

/-- The sequence of length `L` after data placement (R130, R137). -/
def place (L : Nat) (d : List Bool) : List Bool := placeFrom L 0 d

/-- One parity level (R131): `c[p] <- XOR{ c[i] : i in Cover(p, L) }`. -/
def setParity (c : List Bool) (p : Nat) : List Bool := c.set p (xorPicked (covers p) 0 c)

/-- The overall parity, last (R135): `c[0] <- XOR{ c[i] : 1 <= i < L }`. -/
def setOverall (c : List Bool) : List Bool := c.set 0 (xorPicked (fun i => decide (1 ≤ i)) 0 c)

/-- The construction of R139 with the parity levels done in the order `ps` (R134 says any order gives the same). -/
def hBlockInOrder (ps : List Nat) (L : Nat) (d : List Bool) : List Bool :=
  setOverall (ps.foldl setParity (place L d))

/-- `HBlock(L, d)` (R139). -/
def hBlock (L : Nat) (d : List Bool) : List Bool := hBlockInOrder (ppos L) L d

/-- `LengthEncoder(len)` (R143). -/
def lengthEncoder (len : Nat) : List Bool := hBlock Config.hdrBits (bits11 len)

/-- The register image of the header of `len` (R80, R175): `HDR_OUT[i] = h[i]`. -/
def headerImage (len : Nat) : BitVec 16 := packBits 16 (lengthEncoder len)

/-- The first of `q, 2q, 4q, ...` that `ok` accepts, trying at most `fuel` doublings. -/
def firstPow2 (ok : Nat → Bool) : Nat → Nat → Nat
  | 0, q => q
  | fuel + 1, q => if ok q then q else firstPow2 ok fuel (2 * q)

/-- `npot(x)` (R12): the least power of two `>= x`, with `npot(0) = 1`. -/
def npot (x : Nat) : Nat := firstPow2 (fun q => decide (x ≤ q)) x 1

/-- `SizeREF(n)` (R146). -/
def sizeRef (n : Nat) : Nat := npot (8 * n)

/-- `SizeFIT(n)` (R147): the least power of two whose capacity is at least `8n`. -/
def sizeFit (n : Nat) : Nat := firstPow2 (fun q => decide (8 * n ≤ cap q)) (8 * n + 1) 1

/-- `Size(n)` (R148). -/
def size : Sizing → Nat → Nat
  | .ref, n => sizeRef n
  | .fit, n => sizeFit n

/-- `PayloadEncoder(m)` (R149). -/
def payloadEncoder (z : Sizing) (m : List Byte) : List Bool := hBlock (size z m.length) (msgBits m)

/-- `Drop(n, L) = max(0, 8n - Cap(L))` (R150); subtraction of naturals stops at 0. -/
def dropCount (n L : Nat) : Nat := 8 * n - cap L

/-- `LMAX` (R7a). -/
def lmax (p : Params) : Nat := size p.sizing p.maxBytes

/-- `PW = ceil(MAX_BYTES / 4)` (R7b). -/
def pbufWords (p : Params) : Nat := (p.maxBytes + 3) / 4

/-- `CWW = ceil(LMAX / 32)` (R7c). -/
def cwbufWords (p : Params) : Nat := (lmax p + 31) / 32

end Sys2Proof.Machine
end

