-- ==== Sys2Proof/Machine/State.lean ====
section
/-! DEFINITION. The state of the HSE as plain data (R31), the inputs that drive it (R82), its reset value (R52), and the
reasons a step can stop. -/

namespace Sys2Proof.Machine

open Sys2Proof

/-- The payload buffer PBUF with its written marks (R49, R50): the bytes written since reset, as (byte index, byte)
pairs. A byte is listed exactly when its written mark is 1; an unlisted byte holds no defined value and reads as a draw
(R50, R181; log 7). -/
abbrev Memory := List Host.Cell

/-- The canonical form of PBUF: byte indices strictly rising. (No entry can equal what an unlisted byte reads as: that
is a draw.) -/
abbrev Memory.wf (m : Memory) : Prop := m.Pairwise (fun a b => a.1 < b.1)

/-- The stored flags of STATUS, bits 1 to 6 (R34). Bit 0, BUSY, is a view of PEND (R35; log 12); bits 31:7 are
hard-wired 0. -/
structure Flags where
  /-- bit 1 (R36). -/
  done : Bool
  /-- bit 2 (R37). -/
  eIll : Bool
  /-- bit 3 (R38). -/
  eBusy : Bool
  /-- bit 4 (R39). -/
  eHdrOvf : Bool
  /-- bit 5 (R40). -/
  ePlen : Bool
  /-- bit 6 (R41). -/
  trunc : Bool
deriving DecidableEq, Repr

/-- The events that set a sticky flag (R202). -/
inductive EventFlag where
  /-- IllegalCommand (R203). -/
  | eIll
  /-- BusyWrite (R204). -/
  | eBusy
  /-- CapacityOverflow (R205). -/
  | eHdrOvf
  /-- PayloadLength (R206). -/
  | ePlen
  /-- DataTruncation (R207). -/
  | trunc
deriving DecidableEq, Repr

/-- The content of a full PEND slot (R51): an accepted command and its snapshot operand. -/
structure Pending where
  cmd : Instr
  operand : Word
deriving DecidableEq, Repr

/-- One access of the host to the bus (R73): its byte address, its width in bytes, and for a write the data. -/
inductive Access where
  | read (addr bytes : Nat)
  | write (addr bytes : Nat) (v : Word)
deriving DecidableEq, Repr

/-- One turn of an execution (R82): a host access, a turn of the engine (R174), or reset (R230). -/
inductive Event where
  | bus (a : Access)
  | engine
  | reset
deriving DecidableEq, Repr

/-- What the host receives for an access: read data (R76), a normal response to a write (R75, R77), or an error
response (R74, R208). -/
inductive Response where
  | data (v : Word)
  | ok
  | busError
deriving DecidableEq, Repr

/-- The locations of the register window (R71). -/
inductive Location where
  | config
  | cmd
  | status
  | lenIn
  | plen
  | hdrOut
  | cwLen
  | cwDrop
  /-- PBUF word `j`. -/
  | pbuf (j : Nat)
  /-- CWBUF word `w`. -/
  | cwbuf (w : Nat)
deriving DecidableEq, Repr

/-- The state of the HSE. CMD holds no value (R33); CONFIG is the image of `params` (R32); STATUS is the image of
`flags` and `pend` (R34, R35). -/
structure State where
  /-- The parameters of the build (R6); no step changes them (log 1). CONFIG (R32) reports them. -/
  params : Params
  /-- STATUS bits 6:1 (R34). -/
  flags : Flags
  /-- LEN_IN (R43). -/
  lenIn : Word
  /-- PLEN (R44). -/
  plen : Word
  /-- HDR_OUT[15:0] (R45); HDR_OUT[31:16] is hard-wired 0. -/
  hdrOut : BitVec 16
  /-- CW_LEN (R46). -/
  cwLen : Word
  /-- CW_DROP (R48). -/
  cwDrop : Word
  /-- PBUF and its written marks (R49, R50). -/
  pbuf : Memory
  /-- CWBUF storage `cwb[0], cwb[1], ...` (R47), as far as a completion has written it since reset (log 8). -/
  cwb : List Bool
  /-- PEND (R51). -/
  pend : Option Pending
  /-- The MODEL's own: whose turns come next (R82; log 2). -/
  sched : List Event
  /-- The MODEL's own: the response to the most recent host access (R208; log 5). -/
  resp : Option Response
  /-- The MODEL's own: how many draws have been numbered (R13; log 6). -/
  draws : Nat
deriving DecidableEq, Repr

/-- Why the machine stops. -/
inductive Fault where
  /-- Raised by a host access at a bus address outside `BASE .. BASE + 0x1FFF`: R70 says every host access names an
  address in the window, so the spec gives such an access no effect. Safe (log 4): the model stops. A bus error is NOT
  a fault of the model; it is a response (R74), and the machine goes on. -/
  | outsideWindow
deriving DecidableEq, Repr

/-- Why the model gives a step no meaning. -/
inductive Refusal where
  /-- Raised by a command that has no meaning yet, under its name in spec/opcode_table.json. Safe. No command of this
  model is left so. -/
  | notModelled (mnemonic : String)
deriving DecidableEq, Repr

/-- The flags after reset (R52: STATUS 0). -/
def Flags.reset : Flags :=
  { done := false, eIll := false, eBusy := false, eHdrOvf := false, ePlen := false, trunc := false }

/-- The state of the build `p` right after reset (R52). PBUF: every written mark 0. CWBUF: unspecified and invisible,
nothing held (log 8). The model's own fields: nothing scheduled, no response, no draw numbered (DESIGN CHOICE, logs 2,
5, 6). -/
def State.resetOf (p : Params) : State :=
  { params := p, flags := Flags.reset, lenIn := 0, plen := 0, hdrOut := 0, cwLen := 0, cwDrop := 0,
    pbuf := [], cwb := [], pend := none, sched := [], resp := none, draws := 0 }

/-- The machine right after reset, for the build `Config.params` (log 1). -/
def State.reset : State := State.resetOf Config.params

end Sys2Proof.Machine
end

