-- ==== Sys2Proof/Machine/Flags.lean ====
section
/-! DEFINITION. STATUS: its flags, how an event sets one (R201, R202), the write-1-to-clear rule (R42), and the word a
read returns (R34, R35). -/

namespace Sys2Proof.Machine

open Sys2Proof

/-- The cause code of an event: its STATUS bit number (R202). -/
def causeCode : EventFlag → Nat
  | .eIll => 2
  | .eBusy => 3
  | .eHdrOvf => 4
  | .ePlen => 5
  | .trunc => 6

/-- The value of an event's flag. -/
def getFlag : EventFlag → Flags → Bool
  | .eIll, f => f.eIll
  | .eBusy, f => f.eBusy
  | .eHdrOvf, f => f.eHdrOvf
  | .ePlen, f => f.ePlen
  | .trunc, f => f.trunc

/-- `flag F` (R201): set bit `F` to 1, leave the others. -/
def setFlag : EventFlag → Flags → Flags
  | .eIll, f => { f with eIll := true }
  | .eBusy, f => { f with eBusy := true }
  | .eHdrOvf, f => { f with eHdrOvf := true }
  | .ePlen, f => { f with ePlen := true }
  | .trunc, f => { f with trunc := true }

/-- Write 1 to clear (R42): each bit 1 to 6 of `v` that is 1 clears its flag; `v[0]` and `v[31:7]` are ignored. -/
def clearFlags (v : Word) (f : Flags) : Flags :=
  { done := f.done && !v.getLsbD 1
    eIll := f.eIll && !v.getLsbD 2
    eBusy := f.eBusy && !v.getLsbD 3
    eHdrOvf := f.eHdrOvf && !v.getLsbD 4
    ePlen := f.ePlen && !v.getLsbD 5
    trunc := f.trunc && !v.getLsbD 6 }

/-- `STATUS.BUSY` (R35): 1 exactly when PEND holds a command. -/
def busy (s : State) : Bool := s.pend.isSome

/-- The word a read of STATUS returns (R34). -/
def statusWord (s : State) : Word :=
  packBits 32 [busy s, s.flags.done, s.flags.eIll, s.flags.eBusy, s.flags.eHdrOvf, s.flags.ePlen, s.flags.trunc]

end Sys2Proof.Machine
end

