-- ==== Sys2Proof/Machine/Ops.lean ====
section
/-! DEFINITION. The shared operations: one byte of PBUF, the events that refuse a write (R211), their return (R212),
the acceptance of a command (R170), the end of a completion (R179), the response to a host access, and reset (R230). -/

namespace Sys2Proof.Machine

open Sys2Proof

/-- The PBUF byte `pb[k]`, if its written mark `pw[k]` is 1 (R50). -/
def Memory.read : Memory → Nat → Option Byte
  | [], _ => none
  | (a, b) :: m, k => if k = a then some b else Memory.read m k

/-- Write PBUF byte `k` and set its mark (R77). Keeps the canonical form. -/
def Memory.write : Memory → Nat → Byte → Memory
  | [], k, v => [(k, v)]
  | (a, b) :: m, k, v =>
    if k < a then (k, v) :: (a, b) :: m
    else if k = a then (k, v) :: m
    else (a, b) :: Memory.write m k v

/-- Write PBUF word `j` (R77, R78): lane `t` to byte `4j + t`, for t in 0..3. -/
def Memory.writeWord (m : Memory) (j : Nat) (v : Word) : Memory :=
  (((m.write (4 * j) (lane v 0)).write (4 * j + 1) (lane v 1)).write (4 * j + 2) (lane v 2)).write
    (4 * j + 3) (lane v 3)

/-- TAKING AN EVENT (R201, R211), the HSE's only form of trap entry: set one flag, change nothing else. -/
def raiseFlag (f : EventFlag) (s : State) : State := { s with flags := setFlag f s.flags }

/-- RETURN FROM AN EVENT (R212, R42): the host's W1C write to STATUS. -/
def writeStatus (v : Word) (s : State) : State := { s with flags := clearFlags v s.flags }

/-- The operand of a command that is captured at acceptance (R102, R180). -/
def scalarOperand : Instr → State → Word
  | .encHdr, s => s.lenIn
  | .encPay, s => s.plen
  | .encMsg, s => s.plen

/-- Accepting a command (R170): `DONE <- 0`, PEND filled with the command and its operand, and so `BUSY <- 1` (R35). -/
def accept (i : Instr) (s : State) : State :=
  { s with flags := { s.flags with done := false }
           pend := some { cmd := i, operand := scalarOperand i s } }

/-- The order of checks at acceptance for a legal command (R170, R209): BUSY first, then the command's range check. -/
def presentCommand (i : Instr) (outOfRange : Bool) (overflow : EventFlag) (s : State) : State :=
  if busy s then raiseFlag .eBusy s
  else if outOfRange then raiseFlag overflow s
  else accept i s

/-- The end of every completion (R179): `PEND <- empty`, so `BUSY <- 0`, and `DONE <- 1`. -/
def finish (s : State) : State :=
  { s with pend := none, flags := { s.flags with done := true } }

/-- Storing a word in LEN_IN (R43). -/
def storeLenIn (v : Word) (s : State) : State := { s with lenIn := v }

/-- Storing a word in PLEN (R44). -/
def storePlen (v : Word) (s : State) : State := { s with plen := v }

/-- Storing a word in PBUF word `j` (R77). -/
def storePbuf (j : Nat) (v : Word) (s : State) : State := { s with pbuf := s.pbuf.writeWord j v }

/-- The response the host receives for its access (R74, R76, R208). -/
def respond (r : Response) (s : State) : State := { s with resp := some r }

/-- Number `n` draws, so that the next draw is a fresh one (R13; log 6). -/
def useDraws (n : Nat) (s : State) : State := { s with draws := s.draws + n }

/-- Reset (R230, R52). The schedule of turns still to come and the numbering of draws are the model's own and go on
(log 11). -/
def applyReset (s : State) : State :=
  { State.resetOf s.params with sched := s.sched, draws := s.draws }

end Sys2Proof.Machine
end

