-- ==== Sys2Proof/Machine/Operands.lean ====
section
/-! DEFINITION. The operands of the payload commands that are read at completion (R180, R181): the message bytes. -/

namespace Sys2Proof.Machine

open Sys2Proof

/-- `byteval(k)` (R181): `pb[k]` if its written mark is 1, else a draw of its own. -/
def byteval (s : State) (k : Nat) : Byte :=
  match s.pbuf.read k with
  | some b => b
  | none => Config.freeByte (s.draws + k)

/-- The message the engine encodes (R176): `byteval(0) .. byteval(n-1)`. -/
def message (s : State) (n : Nat) : List Byte := (List.range n).map (byteval s)

end Sys2Proof.Machine
end

