-- ==== Sys2Proof/Machine/Commands.lean ====
section
/-! DEFINITION. The three commands. Each has two steps (spec/41_commands.md): ACCEPTANCE, when the host presents it
(`exec...`, R170), and COMPLETION, when the engine performs it (`complete...`, R174 to R179). -/

namespace Sys2Proof.Machine

open Sys2Proof

/-- Presenting ENC_HDR (R170, R171): refused with E_HDR_OVF when `LEN_IN > 2047` (R205). -/
def execEncHdr (s : State) : Host.Outcome State Fault Refusal :=
  .next (presentCommand .encHdr (decide (Config.maxLen < s.lenIn.toNat)) .eHdrOvf s)

/-- Presenting ENC_PAY (R170, R172): refused with E_PLEN when `PLEN > MAX_BYTES` (R206). -/
def execEncPay (s : State) : Host.Outcome State Fault Refusal :=
  .next (presentCommand .encPay (decide (s.params.maxBytes < s.plen.toNat)) .ePlen s)

/-- Presenting ENC_MSG (R170, R173): refused with E_PLEN when `PLEN > MAX_BYTES` (R206). -/
def execEncMsg (s : State) : Host.Outcome State Fault Refusal :=
  .next (presentCommand .encMsg (decide (s.params.maxBytes < s.plen.toNat)) .ePlen s)

/-- Writing the header output (R175): `HDR_OUT[i] = h[i]`. -/
def writeHeader (len : Nat) (s : State) : State := { s with hdrOut := headerImage len }

/-- Writing the payload outputs (R176, R178): the codeword to CWBUF at indices `0 .. L-1` (storage above keeps what it
held, log 8), CW_LEN, CW_DROP, and TRUNC when bits are dropped. The message takes one draw number per byte. -/
def writePayload (n : Nat) (s : State) : State :=
  let L := size s.params.sizing n
  let c := payloadEncoder s.params.sizing (message s n)
  let dropped := dropCount n L
  { s with cwb := c ++ s.cwb.drop c.length
           cwLen := BitVec.ofNat 32 L
           cwDrop := BitVec.ofNat 32 dropped
           flags := if 0 < dropped then setFlag .trunc s.flags else s.flags
           draws := s.draws + n }

/-- Completion of `(ENC_HDR, len)` (R171, R175, R179). -/
def completeEncHdr (len : Nat) (s : State) : State := finish (writeHeader len s)

/-- Completion of `(ENC_PAY, n)` (R172, R176, R179). -/
def completeEncPay (n : Nat) (s : State) : State := finish (writePayload n s)

/-- Completion of `(ENC_MSG, n)` (R173, R177, R179): the header of `n` and the payload outputs, in one step. -/
def completeEncMsg (n : Nat) (s : State) : State := finish (writeHeader n (writePayload n s))

end Sys2Proof.Machine
end

