-- ==== Sys2Proof/Machine/Dispatch.lean ====
section
/-! DEFINITION. One arm per command: what presenting it does (R170). -/

namespace Sys2Proof.Machine

open Sys2Proof

-- Presenting a legal command to the HSE.
def exec (i : Instr) (s : State) : Host.Outcome State Fault Refusal :=
  match i with
  | .encHdr => Sys2Proof.Machine.execEncHdr s
  | .encPay => Sys2Proof.Machine.execEncPay s
  | .encMsg => Sys2Proof.Machine.execEncMsg s

end Sys2Proof.Machine
end

