-- ==== Sys2Proof/Machine/Engine.lean ====
section
/-! DEFINITION. The engine's one step kind, completion (R174). -/

namespace Sys2Proof.Machine

open Sys2Proof

/-- Performing the pending command and ending it (R174 to R179), in one atomic step. -/
def complete (p : Pending) (s : State) : State :=
  match p.cmd with
  | .encHdr => completeEncHdr p.operand.toNat s
  | .encPay => completeEncPay p.operand.toNat s
  | .encMsg => completeEncMsg p.operand.toNat s

/-- A turn of the engine (R174): completion when PEND is full; nothing when it is empty (R220; log 15). -/
def engineTurn (s : State) : State :=
  match s.pend with
  | some p => complete p s
  | none => s

end Sys2Proof.Machine
end

