-- ==== Sys2Proof/Machine/Bus.lean ====
section
/-! DEFINITION. The bus target: the address map and the bus checks (R70 to R74), reads (R76) and writes (R77), and the
write of a command word (R170). -/

namespace Sys2Proof.Machine

open Sys2Proof

/-- The offset of a bus address in the window (R70), or none outside it. -/
def windowOffset (p : Params) (addr : Nat) : Option Nat :=
  if p.base ≤ addr ∧ addr < p.base + Config.windowBytes then some (addr - p.base) else none

/-- The address map (R71): what stands at an offset that is a multiple of 4, or none where nothing does (R72). -/
def locate (p : Params) (off : Nat) : Option Location :=
  if off = 0x000 then some .config
  else if off = 0x004 then some .cmd
  else if off = 0x008 then some .status
  else if off = 0x00C then some .lenIn
  else if off = 0x010 then some .plen
  else if off = 0x014 then some .hdrOut
  else if off = 0x018 then some .cwLen
  else if off = 0x01C then some .cwDrop
  else if 0x400 ≤ off ∧ off < 0x400 + 4 * pbufWords p then some (.pbuf ((off - 0x400) / 4))
  else if 0x1000 ≤ off ∧ off < 0x1000 + 4 * cwbufWords p then some (.cwbuf ((off - 0x1000) / 4))
  else none

/-- The bus checks (R73, R74), in their order: width and alignment, then mapping. -/
def busTarget (p : Params) (off bytes : Nat) : Option Location :=
  if bytes = 4 ∧ off % 4 = 0 then locate p off else none

/-- CONFIG (R32): [10:0] MAX_BYTES, [11] SIZING (1 is FIT), [27:12] LMAX, [31:28] 0. -/
def configWord (p : Params) : Word :=
  0#4 ++ (BitVec.ofNat 16 (lmax p) ++ (BitVec.ofBool (p.sizing == .fit) ++ BitVec.ofNat 11 p.maxBytes))

/-- A lane of a PBUF word as a read returns it (R76): the byte if its mark is 1, else a draw. -/
def pbufLane (s : State) (j t : Nat) : Byte :=
  match s.pbuf.read (4 * j + t) with
  | some b => b
  | none => Config.freeByte (s.draws + t)

/-- CWBUF word `w` as a read returns it while idle (R47, R76, R80): bit `b` is `cwb[32w+b]` below CW_LEN, else 0. -/
def cwbufWord (s : State) (w : Nat) : Word :=
  packBits 32 ((List.range 32).map fun b => decide (32 * w + b < s.cwLen.toNat) && bitAt s.cwb (32 * w + b))

/-- An output as a read returns it (R241): exact while idle, a draw while BUSY = 1. -/
def outputRead (s : State) (v : Word) : Word := if busy s then Config.freeWord s.draws else v

/-- The value a read returns (R76). -/
def readValue (s : State) : Location → Word
  | .config => configWord s.params
  | .cmd => 0
  | .status => statusWord s
  | .lenIn => s.lenIn
  | .plen => s.plen
  | .hdrOut => outputRead s (s.hdrOut.zeroExtend 32)
  | .cwLen => outputRead s s.cwLen
  | .cwDrop => outputRead s s.cwDrop
  | .pbuf j => fromLanes (pbufLane s j 0) (pbufLane s j 1) (pbufLane s j 2) (pbufLane s j 3)
  | .cwbuf w => outputRead s (cwbufWord s w)

/-- How many draw numbers a read takes (log 6): one for an output, one per lane for PBUF, none for the registers that
are always exact (R241). -/
def drawsOfRead : Location → Nat
  | .config => 0
  | .cmd => 0
  | .status => 0
  | .lenIn => 0
  | .plen => 0
  | .hdrOut => 1
  | .cwLen => 1
  | .cwDrop => 1
  | .pbuf _ => 4
  | .cwbuf _ => 1

/-- A host read of a location (R76): no side effect on any state of the HSE (R81). -/
def busRead (l : Location) (s : State) : State :=
  useDraws (drawsOfRead l) (respond (.data (readValue s l)) s)

/-- Presenting a word written to CMD (R170): BUSY is checked before the word is decoded (R105, R209); an illegal word
raises IllegalCommand (R203); a legal command is executed. -/
def presentWord (v : Word) (s : State) : Host.Outcome State Fault Refusal :=
  if busy s then .next (raiseFlag .eBusy s)
  else
    match decode v with
    | .error _ => .next (raiseFlag .eIll s)
    | .ok i => exec i s

/-- A write of an operand (R77, R242): refused with E_BUSY while BUSY = 1, else performed. -/
def operandWrite (performed : State) (s : State) : State :=
  if busy s then raiseFlag .eBusy s else performed

/-- What a host write to a location does (R77). -/
def writeEffect (l : Location) (v : Word) (s : State) : Host.Outcome State Fault Refusal :=
  match l with
  | .cmd => presentWord v s
  | .status => .next (writeStatus v s)
  | .lenIn => .next (operandWrite (storeLenIn v s) s)
  | .plen => .next (operandWrite (storePlen v s) s)
  | .pbuf j => .next (operandWrite (storePbuf j v s) s)
  | .config => .next s
  | .hdrOut => .next s
  | .cwLen => .next s
  | .cwDrop => .next s
  | .cwbuf _ => .next s

/-- A host write of a location: a normal response (R75, R77) and its effect. -/
def busWrite (l : Location) (v : Word) (s : State) : Host.Outcome State Fault Refusal :=
  writeEffect l v (respond .ok s)

/-- One host access (R70 to R77): outside the window it is no access to the HSE (log 4); a failed bus check is answered
with an error response and nothing else (R74). -/
def hostAccess (a : Access) (s : State) : Host.Outcome State Fault Refusal :=
  match a with
  | .read addr bytes =>
    match windowOffset s.params addr with
    | none => .fault .outsideWindow
    | some off =>
      match busTarget s.params off bytes with
      | none => .next (respond .busError s)
      | some l => .next (busRead l s)
  | .write addr bytes v =>
    match windowOffset s.params addr with
    | none => .fault .outsideWindow
    | some off =>
      match busTarget s.params off bytes with
      | none => .next (respond .busError s)
      | some l => busWrite l v s

/-- One turn of an execution (R82). -/
def takeTurn (e : Event) (s : State) : Host.Outcome State Fault Refusal :=
  match e with
  | .bus a => hostAccess a s
  | .engine => .next (engineTurn s)
  | .reset => .next (applyReset s)

/-- The machine's next turn: the first scheduled one; with none scheduled the engine is the only agent left, so it
takes its turn (R174, R240; log 2). -/
def runTurn (s : State) : Host.Outcome State Fault Refusal :=
  match s.sched with
  | [] => .next (engineTurn s)
  | e :: rest => takeTurn e { s with sched := rest }

/-- The table word `w` of `nbits` bits as a word of the CMD register; the bits above `nbits` are 0. -/
def tableWord (nbits w : Nat) : Word := BitVec.ofNat 32 (w % 2 ^ nbits)

/-- The host access `wr OFF, V` (R106): a 32-bit write at an offset of the window. -/
def wr (p : Params) (off : Nat) (v : Word) : Event := .bus (.write (p.base + off) 4 v)

/-- The host access `rd OFF` (R106): a 32-bit read at an offset of the window. -/
def rd (p : Params) (off : Nat) : Event := .bus (.read (p.base + off) 4)

end Sys2Proof.Machine
end

