-- ==== Sys2Proof/Machine/Step.lean ====
section
/-! DEFINITION. One step of the machine, and how a command word is put in front of it. -/

namespace Sys2Proof.Machine

open Sys2Proof

/-- One step: one turn of an execution (R82). -/
def step (s : State) : Host.Outcome State Fault Refusal := runTurn s

/-- `s` with a host write of the command word to CMD as its next turn (log 3): the HSE fetches nothing (R30), and a
command comes to run by that write. -/
def State.withFetchWord (s : State) (nbits w : Nat) : State :=
  { s with sched := wr s.params 0x004 (tableWord nbits w) :: s.sched }

end Sys2Proof.Machine
end

