-- ==== Sys2Proof/Safety.lean ====
section
/-! DEFINITION. The terms claims are made in: a state with its next turn put in front, the legal register values, what it
is for the outputs to be codewords, what a host can see, and the measures of a codeword (syndrome, weight, distance). -/

namespace Sys2Proof.Machine

open Sys2Proof

/-- `s` with the turn `e` next and the turns `rest` after it. -/
def State.facing (s : State) (e : Event) (rest : List Event) : State := { s with sched := e :: rest }

/-- `s` with the turns `rest` still to come: what is left of `s.facing e rest` once the turn `e` is taken from the
schedule. -/
def State.left (s : State) (rest : List Event) : State := { s with sched := rest }

/-- The bus address an access names (R70). -/
def busAddress : Access → Nat
  | .read addr _ => addr
  | .write addr _ _ => addr

/-- Whether an event of the schedule is no access outside `BASE .. BASE + 0x1FFF` (R70; log 4). The bounds are written
out, not taken from the machine's own check. -/
def inWindow (p : Params) : Event → Bool
  | .bus a => decide (p.base ≤ busAddress a ∧ busAddress a < p.base + 0x2000)
  | .engine => true
  | .reset => true

/-- Whether a pending command holds an operand that acceptance admits (R170, R51). -/
def pendingLegal (p : Params) (q : Pending) : Bool :=
  match q.cmd with
  | .encHdr => decide (q.operand.toNat ≤ Config.maxLen)
  | .encPay => decide (q.operand.toNat ≤ p.maxBytes)
  | .encMsg => decide (q.operand.toNat ≤ p.maxBytes)

/-- The register values the spec gives a meaning: what every run from reset of a legal build keeps. -/
structure RegistersLegal (s : State) : Prop where
  /-- R6. -/
  params : s.params.wf = true
  /-- PBUF is in its canonical form. -/
  pbuf_canonical : Memory.wf s.pbuf
  /-- R49: PBUF has `4 * PW` bytes. -/
  pbuf_size : ∀ c ∈ s.pbuf, c.1 < 4 * pbufWords s.params
  /-- R51, R170, R144: a pending command holds an operand its range check passed. -/
  pend : s.pend.all (pendingLegal s.params) = true
  /-- R36, R170, R179: BUSY and DONE are never both 1. -/
  done_idle : busy s = true → s.flags.done = false
  /-- R46: CW_LEN is 0 or a power of two that is at most LMAX. -/
  cwLen : s.cwLen = 0 ∨ (∃ k, s.cwLen.toNat = 2 ^ k) ∧ s.cwLen.toNat ≤ lmax s.params
  /-- R47: the codeword lies in the storage, and the storage has at most LMAX bits. -/
  cwb : s.cwLen.toNat ≤ s.cwb.length ∧ s.cwb.length ≤ lmax s.params
  /-- R48. -/
  cwDrop : s.cwDrop.toNat ≤ 8 * s.params.maxBytes
  /-- R48, R178: under FIT nothing is dropped and TRUNC is never set. -/
  fit_drops_nothing : s.params.sizing = .fit → s.cwDrop = 0 ∧ s.flags.trunc = false

/-- The outputs are what a completed encode leaves, or what reset leaves: HDR_OUT is the header of a length that fits
11 bits (R45), and CWBUF with CW_LEN and CW_DROP is the payload codeword of a message that fits PBUF (R46 to R48), or
CW_LEN and CW_DROP are 0. -/
def OutputsAreCodewords (s : State) : Prop :=
  (∃ len, len ≤ Config.maxLen ∧ s.hdrOut = headerImage len) ∧
  ((s.cwLen = 0 ∧ s.cwDrop = 0) ∨
    ∃ m : List Byte, m.length ≤ s.params.maxBytes ∧
      s.cwLen = BitVec.ofNat 32 (size s.params.sizing m.length) ∧
      s.cwb.take (size s.params.sizing m.length) = payloadEncoder s.params.sizing m ∧
      s.cwDrop = BitVec.ofNat 32 (dropCount m.length (size s.params.sizing m.length)))

/-- Two states that differ at most in CWBUF storage at indices at or above CW_LEN (R47, U2). -/
def SameVisible (s t : State) : Prop :=
  t = { s with cwb := t.cwb } ∧ ∀ i < s.cwLen.toNat, bitAt s.cwb i = bitAt t.cwb i

/-- The outputs a payload completion leaves are the same in the two states: CW_LEN, CW_DROP, and every codeword bit
below CW_LEN. -/
def SamePayload (s t : State) : Prop :=
  s.cwLen = t.cwLen ∧ s.cwDrop = t.cwDrop ∧ ∀ i < s.cwLen.toNat, bitAt s.cwb i = bitAt t.cwb i

/-- `t` holds the outputs a payload completion of `n` bytes in `s` leaves (R176, R181): the codeword of the bytes, an
unwritten byte being a draw of its own, with its length and its count of dropped bits. The data bits are written out:
message bit `8k + t` is bit `7 - t` of byte `k` (R79). -/
def PayloadOutputs (s t : State) (n : Nat) : Prop :=
  let byte := fun k => (s.pbuf.read k).getD (Config.freeByte (s.draws + k))
  let d := (List.range (8 * n)).map fun i => (byte (i / 8)).getLsbD (7 - i % 8)
  let L := size s.params.sizing n
  (∀ i < L, bitAt t.cwb i = bitAt (hBlock L d) i) ∧ t.cwLen.toNat = L ∧ t.cwDrop.toNat = dropCount n L

/-- The exclusive or of the indices of the 1 bits of a sequence (R156). -/
def syndrome (c : List Bool) : Nat := ((List.range c.length).filter (bitAt c)).foldr (· ^^^ ·) 0

/-- How many 1 bits a number has (R136). -/
def popcount (i : Nat) : Nat := ((List.range (i + 1)).filter i.testBit).length

/-- In how many positions two sequences of one length differ (R159). -/
def distance (c c' : List Bool) : Nat :=
  ((List.range c.length).filter fun i => bitAt c i != bitAt c' i).length

/-- The elementwise exclusive or of two sequences of one length (R157). -/
def xorBits (c c' : List Bool) : List Bool := List.zipWith (· ^^ ·) c c'

/-- `q` is the least power of two for which `ok` holds (R146, R147). -/
def IsLeastPow2 (ok : Nat → Prop) (q : Nat) : Prop :=
  (∃ k, q = 2 ^ k) ∧ ok q ∧ ∀ k, ok (2 ^ k) → q ≤ 2 ^ k

end Sys2Proof.Machine
end

