-- ==== Sys2Proof/Certificates/Slice0/Obligations.lean ====
section
/-! DEFINITION. The statements for the provers. "The turn" of a statement is the event it puts in front of the schedule
(`State.facing`); what a statement says of a next state is said of every state and every schedule. -/

open Sys2Proof Sys2Proof.Machine

/-! ### Command words -/

/-- R105: decoding, by whole words, and BUSY is checked before decoding. -/
def Obligations.DecodingFollowsTheWordTable : Prop :=
  ∀ v : Word,
    (v = 0x00000001#32 → decode v = .ok .encHdr) ∧
    (v = 0x00000002#32 → decode v = .ok .encPay) ∧
    (v = 0x00000003#32 → decode v = .ok .encMsg) ∧
    (v ≠ 0x00000001#32 → v ≠ 0x00000002#32 → v ≠ 0x00000003#32 → ∃ x, decode v = .error x) ∧
    ∀ (s : State) (rest : List Event), busy s = true →
      step (s.facing (wr s.params 0x004 v) rest) =
        .next { s.left rest with resp := some .ok, flags := { s.flags with eBusy := true } }

/-- R103, R104, R203: which words are legal, and what an illegal one presented while idle does. -/
def Obligations.IllegalWordsAreRefusedWithEIll : Prop :=
  ∀ v : Word,
    ((∃ i, decode v = .ok i) ↔
      v.extractLsb' 4 28 = 0 ∧ (v.extractLsb' 0 4 = 1 ∨ v.extractLsb' 0 4 = 2 ∨ v.extractLsb' 0 4 = 3)) ∧
    ((∃ i, decode v = .ok i) ↔ v = 0x00000001#32 ∨ v = 0x00000002#32 ∨ v = 0x00000003#32) ∧
    ∀ (s : State) (rest : List Event), (∀ i, decode v ≠ .ok i) → s.pend = none →
      step (s.facing (wr s.params 0x004 v) rest) =
        .next { s.left rest with resp := some .ok, flags := { s.flags with eIll := true } }

/-- Decoding an encoded command gives it back, every word that decodes is the encoding of what it decodes to, and the
table's numbering of a word's bits is the CMD register's. -/
def Obligations.DecodeAndEncodeAgree : Prop :=
  (∀ i : Instr, i.wf = true → decode (encode i) = .ok i ∧ decodeTableWord 32 (encode i).toNat = some i) ∧
  ∀ (v : Word) (i : Instr), decode v = .ok i → encode i = v

/-- The table's three words, written out bit by bit, and a few illegal ones (R101, R103, R104). -/
def Obligations.TableWordsDecode : Prop :=
  decode 0b00000000000000000000000000000001#32 = .ok .encHdr ∧
  decode 0b00000000000000000000000000000010#32 = .ok .encPay ∧
  decode 0b00000000000000000000000000000011#32 = .ok .encMsg ∧
  decode 0b00000000000000000000000000000000#32 = .error .unassignedOp ∧
  decode 0b00000000000000000000000000000100#32 = .error .unassignedOp ∧
  decode 0b00000000000000000000000000010001#32 = .error .reservedBits ∧
  decode 0b10000000000000000000000000000001#32 = .error .reservedBits

/-- A step whose turn is a write of a legal word to CMD is the execution of the command the word decodes to, after the
turn has been taken from the schedule and the write answered with a normal response; and `withFetchWord` puts exactly
that turn in front. -/
def Obligations.StepRunsTheDecodedCommand : Prop :=
  (∀ (s : State) (rest : List Event) (v : Word) (i : Instr), decode v = .ok i →
    step (s.facing (wr s.params 0x004 v) rest) = exec i { s.left rest with resp := some .ok }) ∧
  ∀ (s : State) (nbits w : Nat) (i : Instr), decodeTableWord nbits w = some i →
    step (s.withFetchWord nbits w) = exec i { s with resp := some .ok }

/-! ### Acceptance -/

/-- R170: everything a write to CMD does, with its checks in their order. -/
def Obligations.CmdWriteChecksBusyThenWordThenRange : Prop :=
  ∀ (s : State) (rest : List Event) (v : Word),
    let a : State := { s.left rest with resp := some .ok }
    step (s.facing (wr s.params 0x004 v) rest) = .next (
      if s.pend.isSome then { a with flags := { s.flags with eBusy := true } }
      else if v = 0x00000001#32 then
        if 2047 < s.lenIn.toNat then { a with flags := { s.flags with eHdrOvf := true } }
        else { a with flags := { s.flags with done := false }, pend := some { cmd := .encHdr, operand := s.lenIn } }
      else if v = 0x00000002#32 ∨ v = 0x00000003#32 then
        if s.params.maxBytes < s.plen.toNat then { a with flags := { s.flags with ePlen := true } }
        else
          { a with
            flags := { s.flags with done := false }
            pend := some { cmd := if v = 0x00000002#32 then .encPay else .encMsg, operand := s.plen } }
      else { a with flags := { s.flags with eIll := true } })

/-- ENC_HDR presented while idle with LEN_IN in range is accepted, and the engine's next turn encodes it: HDR_OUT is the
header of LEN_IN, DONE is 1, and nothing else changes. -/
def Obligations.EncHdrIsAcceptedAndEncodesLenIn : Prop :=
  ∀ (s : State) (rest : List Event), s.pend = none → s.lenIn.toNat ≤ 2047 →
    let a : State :=
      { s with flags := { s.flags with done := false }, pend := some { cmd := .encHdr, operand := s.lenIn } }
    exec .encHdr s = .next a ∧
    step (a.facing .engine rest) =
      .next { s.left rest with hdrOut := headerImage s.lenIn.toNat, flags := { s.flags with done := true } }

/-- ENC_PAY presented while idle with PLEN in range is accepted, and the engine's next turn encodes it: the payload
outputs of the first PLEN bytes of PBUF, DONE 1, TRUNC set when bits are dropped, and nothing else changes (the draw
counter is the model's own, log 6). -/
def Obligations.EncPayIsAcceptedAndEncodesPbuf : Prop :=
  ∀ (s : State) (rest : List Event), s.params.wf = true → s.pend = none → s.plen.toNat ≤ s.params.maxBytes →
    let a : State :=
      { s with flags := { s.flags with done := false }, pend := some { cmd := .encPay, operand := s.plen } }
    let n := s.plen.toNat
    exec .encPay s = .next a ∧
    ∃ t, step (a.facing .engine rest) = .next t ∧ PayloadOutputs s t n ∧
      t = { s.left rest with
            cwb := t.cwb, cwLen := t.cwLen, cwDrop := t.cwDrop, draws := s.draws + n
            flags := { s.flags with
                       done := true
                       trunc := s.flags.trunc || decide (0 < dropCount n (size s.params.sizing n)) } }

/-- ENC_MSG presented while idle with PLEN in range is accepted, and the engine's next turn encodes it: the outputs of
ENC_PAY and the header of PLEN. LEN_IN plays no part. -/
def Obligations.EncMsgIsAcceptedAndEncodesBoth : Prop :=
  ∀ (s : State) (rest : List Event), s.params.wf = true → s.pend = none → s.plen.toNat ≤ s.params.maxBytes →
    let a : State :=
      { s with flags := { s.flags with done := false }, pend := some { cmd := .encMsg, operand := s.plen } }
    let n := s.plen.toNat
    exec .encMsg s = .next a ∧
    ∃ t, step (a.facing .engine rest) = .next t ∧ PayloadOutputs s t n ∧
      t = { s.left rest with
            hdrOut := headerImage n
            cwb := t.cwb, cwLen := t.cwLen, cwDrop := t.cwDrop, draws := s.draws + n
            flags := { s.flags with
                       done := true
                       trunc := s.flags.trunc || decide (0 < dropCount n (size s.params.sizing n)) } }

/-- R205, R206: presented while idle, ENC_HDR with LEN_IN above 2047 sets E_HDR_OVF, and ENC_PAY or ENC_MSG with PLEN
above MAX_BYTES sets E_PLEN; the command is refused and nothing else changes. -/
def Obligations.OperandsOutOfRangeAreRefused : Prop :=
  ∀ s : State, s.pend = none →
    (2047 < s.lenIn.toNat →
      exec .encHdr s = .next { s with flags := { s.flags with eHdrOvf := true } }) ∧
    (s.params.maxBytes < s.plen.toNat → ∀ i, i = .encPay ∨ i = .encMsg →
      exec i s = .next { s with flags := { s.flags with ePlen := true } })

/-- R204: while BUSY = 1 a write to CMD, LEN_IN, PLEN or a PBUF word sets E_BUSY and does nothing else, and a
write to STATUS or to a read-only location does not set it. -/
def Obligations.BusyRefusesCommandAndOperandWrites : Prop :=
  ∀ (s : State) (rest : List Event) (v : Word), s.params.wf = true → busy s = true →
    (∀ off, off = 0x004 ∨ off = 0x00C ∨ off = 0x010 ∨ (∃ j < pbufWords s.params, off = 0x400 + 4 * j) →
      step (s.facing (wr s.params off v) rest) =
        .next { s.left rest with resp := some .ok, flags := { s.flags with eBusy := true } }) ∧
    (∀ i, exec i s = .next { s with flags := { s.flags with eBusy := true } }) ∧
    ∀ off, off = 0x000 ∨ off = 0x008 ∨ off = 0x014 ∨ off = 0x018 ∨ off = 0x01C ∨
        (∃ w < cwbufWords s.params, off = 0x1000 + 4 * w) →
      ∃ t, step (s.facing (wr s.params off v) rest) = .next t ∧ (t.flags.eBusy = true → s.flags.eBusy = true)

/-- R211: a write to CMD that is refused (PEND stays as it was) sets one flag and leaves everything else of the HSE as
it was, DONE included. -/
def Obligations.RefusalSetsOneFlagAndNothingElse : Prop :=
  ∀ (s t : State) (rest : List Event) (v : Word),
    step (s.facing (wr s.params 0x004 v) rest) = .next t → t.pend = s.pend →
      (∃ f, f ≠ .trunc ∧ t.flags = setFlag f s.flags) ∧
      t = { s.left rest with resp := some .ok, flags := t.flags }

/-- The frame of the three commands' acceptance: only STATUS and PEND can change, and how. -/
def Obligations.CommandsChangeOnlyStatusAndPend : Prop :=
  ∀ (i : Instr) (s : State), ∃ t, exec i s = .next t ∧
    t.params = s.params ∧ t.lenIn = s.lenIn ∧ t.plen = s.plen ∧ t.hdrOut = s.hdrOut ∧ t.cwLen = s.cwLen ∧
    t.cwDrop = s.cwDrop ∧ (∀ k, t.pbuf.read k = s.pbuf.read k) ∧ t.cwb = s.cwb ∧ t.sched = s.sched ∧
    t.resp = s.resp ∧ t.draws = s.draws ∧
    ((t.pend = s.pend ∧
        ((s.pend ≠ none ∧ t.flags = { s.flags with eBusy := true }) ∨
         (s.pend = none ∧ i = .encHdr ∧ t.flags = { s.flags with eHdrOvf := true }) ∨
         (s.pend = none ∧ i ≠ .encHdr ∧ t.flags = { s.flags with ePlen := true }))) ∨
     (s.pend = none ∧ t.pend = some { cmd := i, operand := if i = .encHdr then s.lenIn else s.plen } ∧
        t.flags = { s.flags with done := false }))

/-! ### Completion -/

/-- R175: completing (ENC_HDR, len) writes the bit image of the header to HDR_OUT and no other output. -/
def Obligations.HeaderCompletionWritesTheHeader : Prop :=
  ∀ (s : State) (rest : List Event) (len : Word), s.pend = some { cmd := .encHdr, operand := len } →
    ∃ t, step (s.facing .engine rest) = .next t ∧
      (∀ i < 16, (readValue t .hdrOut).getLsbD i = bitAt (lengthEncoder len.toNat) i) ∧
      (readValue t .hdrOut).extractLsb' 16 16 = 0 ∧
      t = { s.left rest with hdrOut := t.hdrOut, pend := none, flags := { s.flags with done := true } }

/-- R176, R79, R124: completing (ENC_PAY, n) writes the payload outputs and sets TRUNC when bits are dropped; HDR_OUT does
not change; and message bit 8k+t is bit 7-t of byte k, both in the codeword's data and in MsgBits. (The draw counter is
the model's own, log 6.) -/
def Obligations.PayloadCompletionWritesTheCodeword : Prop :=
  (∀ m : List Byte, (msgBits m).length = 8 * m.length ∧
    ∀ k t, k < m.length → t < 8 → bitAt (msgBits m) (8 * k + t) = (m.getD k 0).getLsbD (7 - t)) ∧
  ∀ (s : State) (rest : List Event) (n : Word), s.params.wf = true →
    s.pend = some { cmd := .encPay, operand := n } → n.toNat ≤ s.params.maxBytes →
    ∃ t, step (s.facing .engine rest) = .next t ∧ PayloadOutputs s t n.toNat ∧
      t = { s.left rest with
            cwb := t.cwb, cwLen := t.cwLen, cwDrop := t.cwDrop, pend := none, draws := s.draws + n.toNat
            flags := { s.flags with
                       done := true
                       trunc := s.flags.trunc ||
                         decide (0 < dropCount n.toNat (size s.params.sizing n.toNat)) } }

/-- R177: completing (ENC_MSG, n) has the effects of completing (ENC_PAY, n) and writes the header of n, in one step. -/
def Obligations.MessageCompletionWritesBoth : Prop :=
  ∀ (s : State) (rest : List Event) (n : Word), s.params.wf = true →
    s.pend = some { cmd := .encMsg, operand := n } → n.toNat ≤ s.params.maxBytes →
    ∃ t, step (s.facing .engine rest) = .next t ∧ PayloadOutputs s t n.toNat ∧
      (∀ i < 16, (readValue t .hdrOut).getLsbD i = bitAt (lengthEncoder n.toNat) i) ∧
      (readValue t .hdrOut).extractLsb' 16 16 = 0 ∧
      t = { s.left rest with
            hdrOut := t.hdrOut
            cwb := t.cwb, cwLen := t.cwLen, cwDrop := t.cwDrop, pend := none, draws := s.draws + n.toNat
            flags := { s.flags with
                       done := true
                       trunc := s.flags.trunc ||
                         decide (0 < dropCount n.toNat (size s.params.sizing n.toNat)) } }

/-- R179: every completion ends with PEND empty, BUSY 0 and DONE 1, and changes no flag but DONE and TRUNC. -/
def Obligations.EveryCompletionEndsIdleAndDone : Prop :=
  ∀ (s : State) (rest : List Event) (q : Pending), s.pend = some q →
    ∃ t, step (s.facing .engine rest) = .next t ∧ t.pend = none ∧ (statusWord t).getLsbD 0 = false ∧
      (statusWord t).getLsbD 1 = true ∧ ∀ f, f ≠ .trunc → getFlag f t.flags = getFlag f s.flags

/-- R178: a payload completion sets TRUNC exactly when bits are dropped, writes CW_DROP in every case, and leaves TRUNC at
1 once it is. (The inference R178 draws for FIT is a part of `RegistersStayLegal`.) -/
def Obligations.TruncReportsDroppedBits : Prop :=
  ∀ (s : State) (rest : List Event) (q : Pending), s.params.wf = true → s.pend = some q → q.cmd ≠ .encHdr →
    pendingLegal s.params q = true →
    ∃ t, step (s.facing .engine rest) = .next t ∧
      t.cwDrop.toNat = dropCount q.operand.toNat (size s.params.sizing q.operand.toNat) ∧
      (t.flags.trunc = true ↔ s.flags.trunc = true ∨
        0 < dropCount q.operand.toNat (size s.params.sizing q.operand.toNat))

/-- The frame of a completion: the parameters, both operands, every PBUF byte, the response and the rest of the schedule
stay; ENC_HDR leaves the payload outputs and TRUNC, and ENC_PAY leaves HDR_OUT. -/
def Obligations.CompletionsLeaveOperandsAndOtherOutputs : Prop :=
  ∀ (s : State) (rest : List Event) (q : Pending), s.pend = some q →
    ∃ t, step (s.facing .engine rest) = .next t ∧
      t.params = s.params ∧ t.lenIn = s.lenIn ∧ t.plen = s.plen ∧ (∀ k, t.pbuf.read k = s.pbuf.read k) ∧
      t.resp = s.resp ∧ t.sched = rest ∧
      (q.cmd = .encHdr → t.cwLen = s.cwLen ∧ t.cwDrop = s.cwDrop ∧ t.cwb = s.cwb ∧
        t.flags.trunc = s.flags.trunc) ∧
      (q.cmd = .encPay → t.hdrOut = s.hdrOut)

/-! ### The bus -/

/-- R72, R73, R74, R208: an access of another width, at an offset that is no multiple of 4, or at an unmapped offset is
answered with a bus error and changes no state of the HSE. -/
def Obligations.BadAccessesGetABusErrorAndChangeNothing : Prop :=
  ∀ (s : State) (rest : List Event) (off bytes : Nat) (v : Word), s.params.wf = true → off < 0x2000 →
    (bytes ≠ 4 ∨ off % 4 ≠ 0 ∨ (0x020 ≤ off ∧ off < 0x400) ∨
      (0x400 + 4 * pbufWords s.params ≤ off ∧ off < 0x1000) ∨ 0x1000 + 4 * cwbufWords s.params ≤ off) →
    step (s.facing (.bus (.read (s.params.base + off) bytes)) rest) =
      .next { s.left rest with resp := some .busError } ∧
    step (s.facing (.bus (.write (s.params.base + off) bytes v)) rest) =
      .next { s.left rest with resp := some .busError }

/-- R71: at every mapped offset a 32-bit read answers data and a 32-bit write answers a normal response. -/
def Obligations.MappedAccessesAreAnswered : Prop :=
  ∀ (s : State) (rest : List Event) (off : Nat) (v : Word), s.params.wf = true → off % 4 = 0 →
    (off < 0x020 ∨ (0x400 ≤ off ∧ off < 0x400 + 4 * pbufWords s.params) ∨
      (0x1000 ≤ off ∧ off < 0x1000 + 4 * cwbufWords s.params)) →
    (∃ t x, step (s.facing (rd s.params off) rest) = .next t ∧ t.resp = some (.data x)) ∧
    ∃ t, step (s.facing (wr s.params off v) rest) = .next t ∧ t.resp = some .ok

/-- The machine goes on at every step but one: a scheduled access at a bus address outside BASE to BASE + 0x1FFF, which
R70 says is no access to the HSE, stops it (the model's choice, log 4). -/
def Obligations.OnlyAccessesOutsideTheWindowStop : Prop :=
  ∀ s : State,
    ((∀ a rest, s.sched = .bus a :: rest →
        s.params.base ≤ busAddress a ∧ busAddress a < s.params.base + 0x2000) → ∃ t, step s = .next t) ∧
    ∀ a rest, s.sched = .bus a :: rest →
      (busAddress a < s.params.base ∨ s.params.base + 0x2000 ≤ busAddress a) → step s = .fault .outsideWindow

/-- R75: a write to a read-only location, or to read-only bits of STATUS alone, is answered and ignored. -/
def Obligations.ReadOnlyWritesAreIgnored : Prop :=
  ∀ (s : State) (rest : List Event) (v : Word), s.params.wf = true →
    (∀ off, off = 0x000 ∨ off = 0x014 ∨ off = 0x018 ∨ off = 0x01C ∨
        (∃ w < cwbufWords s.params, off = 0x1000 + 4 * w) →
      step (s.facing (wr s.params off v) rest) = .next { s.left rest with resp := some .ok }) ∧
    (v.extractLsb' 1 6 = 0 →
      step (s.facing (wr s.params 0x008 v) rest) = .next { s.left rest with resp := some .ok })

/-- R76, R241: the value every read returns, exact or a draw, with no side effect on any state of the HSE. (The response
and the draw counter are the model's own, logs 5 and 6; a draw is a free value.) -/
def Obligations.ReadsReturnTheMapAndChangeNothing : Prop :=
  ∀ (s : State) (rest : List Event),
    let reads := fun (off : Nat) (x : Word) (k : Nat) =>
      step (s.facing (rd s.params off) rest) =
        .next { s.left rest with resp := some (.data x), draws := s.draws + k }
    reads 0x000 (configWord s.params) 0 ∧ reads 0x004 0 0 ∧ reads 0x008 (statusWord s) 0 ∧
    reads 0x00C s.lenIn 0 ∧ reads 0x010 s.plen 0 ∧
    (s.pend = none →
      reads 0x014 (s.hdrOut.zeroExtend 32) 1 ∧ reads 0x018 s.cwLen 1 ∧ reads 0x01C s.cwDrop 1) ∧
    (s.pend ≠ none → reads 0x014 (Config.freeWord s.draws) 1 ∧ reads 0x018 (Config.freeWord s.draws) 1 ∧
      reads 0x01C (Config.freeWord s.draws) 1) ∧
    (s.params.wf = true → ∀ j < pbufWords s.params, ∃ x, reads (0x400 + 4 * j) x 4 ∧
      ∀ t < 4, x.extractLsb' (8 * t) 8 = (s.pbuf.read (4 * j + t)).getD (Config.freeByte (s.draws + t))) ∧
    (s.params.wf = true → ∀ w < cwbufWords s.params,
      (s.pend = none → ∃ x, reads (0x1000 + 4 * w) x 1 ∧
        ∀ b < 32, x.getLsbD b = if 32 * w + b < s.cwLen.toNat then bitAt s.cwb (32 * w + b) else false) ∧
      (s.pend ≠ none → reads (0x1000 + 4 * w) (Config.freeWord s.draws) 1))

/-- R77: what every write does. For PBUF: the four bytes of the word take the four lanes and are marked written, and
every other byte is as it was. -/
def Obligations.WritesDoWhatTheMapSays : Prop :=
  ∀ (s : State) (rest : List Event) (v : Word), s.params.wf = true →
    let a : State := { s.left rest with resp := some .ok }
    let refused : State := { a with flags := { s.flags with eBusy := true } }
    let writes := fun (off : Nat) (t : State) => step (s.facing (wr s.params off v) rest) = .next t
    step (s.facing (wr s.params 0x004 v) rest) = presentWord v a ∧
    writes 0x008 { a with flags := clearFlags v s.flags } ∧
    writes 0x00C (if busy s then refused else { a with lenIn := v }) ∧
    writes 0x010 (if busy s then refused else { a with plen := v }) ∧
    (∀ j < pbufWords s.params,
      (busy s = true → writes (0x400 + 4 * j) refused) ∧
      (busy s = false → ∃ m : Memory, writes (0x400 + 4 * j) { a with pbuf := m } ∧
        (∀ t < 4, m.read (4 * j + t) = some (v.extractLsb' (8 * t) 8)) ∧
        ∀ k, k < 4 * j ∨ 4 * j + 4 ≤ k → m.read k = s.pbuf.read k)) ∧
    writes 0x000 a ∧ writes 0x014 a ∧ writes 0x018 a ∧ writes 0x01C a ∧
    ∀ w < cwbufWords s.params, writes (0x1000 + 4 * w) a

/-- R42, with the places R34 gives the flags: a write of `v` to STATUS clears each flag 1 to 6 whose bit of `v` is 1,
leaves the others, ignores bit 0 and bits 31:7, changes nothing else, busy or idle, and never sets E_BUSY; a read of
STATUS returns its bits. -/
def Obligations.StatusWriteOneToClear : Prop :=
  (∀ s : State,
    (statusWord s).getLsbD 0 = s.pend.isSome ∧ (statusWord s).getLsbD 1 = s.flags.done ∧
    (statusWord s).getLsbD 2 = s.flags.eIll ∧ (statusWord s).getLsbD 3 = s.flags.eBusy ∧
    (statusWord s).getLsbD 4 = s.flags.eHdrOvf ∧ (statusWord s).getLsbD 5 = s.flags.ePlen ∧
    (statusWord s).getLsbD 6 = s.flags.trunc) ∧
  ∀ (s : State) (rest : List Event) (v : Word), ∃ t, step (s.facing (wr s.params 0x008 v) rest) = .next t ∧
    (∀ b, 1 ≤ b → b ≤ 6 → (statusWord t).getLsbD b = ((statusWord s).getLsbD b && !v.getLsbD b)) ∧
    (statusWord t).getLsbD 0 = (statusWord s).getLsbD 0 ∧
    (statusWord t).extractLsb' 7 25 = 0 ∧
    (t.flags.eBusy = true → s.flags.eBusy = true) ∧
    t = { s.left rest with resp := some .ok, flags := t.flags } ∧
    step (t.facing (rd t.params 0x008) rest) = .next { t.left rest with resp := some (.data (statusWord t)) }

/-- R32: the fields of CONFIG, that reset does not change it, and that a write to it is ignored; and R7: LMAX is
Size(MAX_BYTES) for the build's sizing, PW is MAX_BYTES / 4 and CWW is LMAX / 32, each rounded up. -/
def Obligations.ConfigReportsTheParameters : Prop :=
  (∀ p : Params,
    lmax p = (if p.sizing = .fit then sizeFit p.maxBytes else sizeRef p.maxBytes) ∧
    (p.maxBytes ≤ 4 * pbufWords p ∧ 4 * pbufWords p < p.maxBytes + 4) ∧
    (lmax p ≤ 32 * cwbufWords p ∧ 32 * cwbufWords p < lmax p + 32)) ∧
  ∀ s : State, s.params.wf = true →
    let c := readValue s .config
    (c.extractLsb' 0 11).toNat = s.params.maxBytes ∧
    (c.getLsbD 11 = true ↔ s.params.sizing = .fit) ∧
    (c.extractLsb' 12 16).toNat = lmax s.params ∧ lmax s.params ≤ 32768 ∧
    c.extractLsb' 28 4 = 0 ∧
    ∀ (rest : List Event) (v : Word),
      step (s.facing (wr s.params 0x000 v) rest) = .next { s.left rest with resp := some .ok } ∧
      ∃ t, step (s.facing .reset rest) = .next t ∧ readValue t .config = c

/-- R49, R78: a PBUF word written while idle reads back as it was written, little-endian: lane `t` is byte `4j + t`. -/
def Obligations.WrittenPbufWordReadsBack : Prop :=
  ∀ (s : State) (rest : List Event) (v : Word) (j : Nat), s.params.wf = true → j < pbufWords s.params →
    s.pend = none →
    ∃ t, step (s.facing (wr s.params (0x400 + 4 * j) v) (rd s.params (0x400 + 4 * j) :: rest)) = .next t ∧
      (∀ k < 4, t.pbuf.read (4 * j + k) = some (v.extractLsb' (8 * k) 8)) ∧
      ∃ u, step t = .next u ∧ u.resp = some (.data v)

/-- R220: with PEND empty the HSE does nothing until a host access: a turn of the engine changes nothing, and with
nothing scheduled the whole state is preserved. -/
def Obligations.IdleHseDoesNothing : Prop :=
  ∀ (s : State) (rest : List Event), s.pend = none →
    step (s.facing .engine rest) = .next (s.left rest) ∧ step (s.left []) = .next (s.left [])

/-! ### The encoding functions -/

/-- Cap(2^m) = 2^m - 1 - m (the inference the spec draws in R123), with the values R123 lists. -/
def Obligations.CapacityOfPowersOfTwo : Prop :=
  (∀ m, cap (2 ^ m) = 2 ^ m - 1 - m) ∧
  (List.range 16).map (fun m => cap (2 ^ m)) =
    [0, 0, 1, 4, 11, 26, 57, 120, 247, 502, 1013, 2036, 4083, 8178, 16369, 32752]

/-- R130: every data position receives the next data bit in order, and zero once the data is exhausted. The data positions
are the indices that are neither 0 nor a power of two, ascending (R121). -/
def Obligations.DataBitsArePlacedInOrder : Prop :=
  (∀ L, (dataPos L).Pairwise (· < ·) ∧ ∀ i, i ∈ dataPos L ↔ 1 ≤ i ∧ i < L ∧ ∀ k, i ≠ 2 ^ k) ∧
  ∀ (m : Nat) (d : List Bool) (j : Nat), j < cap (2 ^ m) →
    bitAt (hBlock (2 ^ m) d) ((dataPos (2 ^ m)).getD j 0) = if j < d.length then bitAt d j else false

/-- R131, R135: every parity bit is the exclusive or of its covering set's values, position 1 included, and the overall
parity bit is the exclusive or of every other bit. The parity positions are the powers of two below the length (R122). -/
def Obligations.ParityBitsAreValueXors : Prop :=
  (∀ L p, p ∈ ppos L ↔ p < L ∧ ∃ k, p = 2 ^ k) ∧
  ∀ (m : Nat) (d : List Bool),
    let L := 2 ^ m
    let c := hBlock L d
    (∀ p ∈ ppos L, bitAt c p = xorOver (cover p L) (bitAt c)) ∧
    bitAt c 0 = xorOver ((List.range L).filter (1 ≤ ·)) (bitAt c)

/-- R132: the covering set of parity position 2^k, and the four sets for L = 16. -/
def Obligations.CoveringSetsAreTheIndicesWithBitK : Prop :=
  (∀ L k i, 2 ^ k < L → (i ∈ cover (2 ^ k) L ↔ 0 < i ∧ i < L ∧ i ≠ 2 ^ k ∧ i.testBit k = true)) ∧
  cover 1 16 = [3, 5, 7, 9, 11, 13, 15] ∧ cover 2 16 = [3, 6, 7, 10, 11, 14, 15] ∧
  cover 4 16 = [5, 6, 7, 12, 13, 14, 15] ∧ cover 8 16 = [9, 10, 11, 12, 13, 14, 15]

/-- Every covering set holds data positions only, and L/2 - 1 of them (the inference the spec draws in R133). -/
def Obligations.CoveringSetsHoldDataPositionsOnly : Prop :=
  ∀ m p, p ∈ ppos (2 ^ m) →
    (∀ i ∈ cover p (2 ^ m), i ∈ dataPos (2 ^ m)) ∧ (cover p (2 ^ m)).length = 2 ^ m / 2 - 1

/-- The parity levels may be computed in any order (the inference the spec draws in R134). -/
def Obligations.ParityLevelsMayComeInAnyOrder : Prop :=
  ∀ (m : Nat) (ps : List Nat) (d : List Bool), ps.Perm (ppos (2 ^ m)) →
    hBlockInOrder ps (2 ^ m) d = hBlock (2 ^ m) d

/-- The flat form of the overall parity: the exclusive or over the data positions of even weight (the inference the spec
draws in R136). -/
def Obligations.OverallParityIsEvenWeightXor : Prop :=
  ∀ (m : Nat) (d : List Bool),
    bitAt (hBlock (2 ^ m) d) 0 =
      xorOver ((dataPos (2 ^ m)).filter fun i => popcount i % 2 == 0) (bitAt (hBlock (2 ^ m) d))

/-- The exclusive or of the indices of a block's 1 bits is 0, and so is that of all its bits (the inferences the spec
draws in R155 and R156); and a block of length L has exactly the indices below L (R138). -/
def Obligations.EveryBlockHasZeroSyndrome : Prop :=
  ∀ (m : Nat) (d : List Bool),
    (hBlock (2 ^ m) d).length = 2 ^ m ∧
    syndrome (hBlock (2 ^ m) d) = 0 ∧
    xorOver (List.range (2 ^ m)) (bitAt (hBlock (2 ^ m) d)) = false

/-- The construction is linear (the inference the spec draws in R157), and so is the header encoder. -/
def Obligations.EncodingIsLinear : Prop :=
  (∀ (m : Nat) (d e : List Bool), d.length = e.length →
    hBlock (2 ^ m) (xorBits d e) = xorBits (hBlock (2 ^ m) d) (hBlock (2 ^ m) e)) ∧
  (∀ m k, hBlock (2 ^ m) (List.replicate k false) = List.replicate (2 ^ m) false) ∧
  ∀ a b, a ≤ 2047 → b ≤ 2047 → lengthEncoder (a ^^^ b) = xorBits (lengthEncoder a) (lengthEncoder b)

/-- Two distinct codewords of one length of at least 4 differ in at least 4 positions (R159, which the spec takes from
general knowledge and which it says is provable from R130 to R135). -/
def Obligations.DistinctCodewordsDifferInFourPositions : Prop :=
  ∀ (m : Nat) (d e : List Bool), 2 ≤ m → hBlock (2 ^ m) d ≠ hBlock (2 ^ m) e →
    4 ≤ distance (hBlock (2 ^ m) d) (hBlock (2 ^ m) e)

/-- R140, R141, R142: the header has 16 bits; its data positions carry the bits of the length, and its parity bits are the
exclusive ors R142 writes out, in the source's order. -/
def Obligations.HeaderBitsAreTheWrittenOutXors : Prop :=
  ∀ len, len ≤ 2047 →
    let h := bitAt (lengthEncoder len)
    let l := fun i => len.testBit i
    (lengthEncoder len).length = 16 ∧
    (h 3 = l 10 ∧ h 5 = l 9 ∧ h 6 = l 8 ∧ h 7 = l 7 ∧ h 9 = l 6 ∧ h 10 = l 5 ∧ h 11 = l 4 ∧ h 12 = l 3 ∧
      h 13 = l 2 ∧ h 14 = l 1 ∧ h 15 = l 0) ∧
    h 1 = (h 3 ^^ h 5 ^^ h 7 ^^ h 9 ^^ h 11 ^^ h 13 ^^ h 15) ∧
    h 2 = (h 3 ^^ h 6 ^^ h 7 ^^ h 10 ^^ h 11 ^^ h 14 ^^ h 15) ∧
    h 4 = (h 5 ^^ h 6 ^^ h 7 ^^ h 12 ^^ h 13 ^^ h 14 ^^ h 15) ∧
    h 8 = (h 9 ^^ h 10 ^^ h 11 ^^ h 12 ^^ h 13 ^^ h 14 ^^ h 15) ∧
    h 0 = (h 1 ^^ h 2 ^^ h 3 ^^ h 4 ^^ h 5 ^^ h 6 ^^ h 7 ^^ h 8 ^^ h 9 ^^ h 10 ^^ h 11 ^^ h 12 ^^ h 13 ^^ h 14 ^^
      h 15)

/-- The header's parity bits in terms of the length bits (the inference the spec draws in R142), with the corner cases
and the source's example of R143. -/
def Obligations.HeaderParityInTermsOfTheLength : Prop :=
  (∀ len, len ≤ 2047 →
    let h := bitAt (lengthEncoder len)
    let l := fun i => len.testBit i
    h 1 = (l 10 ^^ l 9 ^^ l 7 ^^ l 6 ^^ l 4 ^^ l 2 ^^ l 0) ∧
    h 2 = (l 10 ^^ l 8 ^^ l 7 ^^ l 5 ^^ l 4 ^^ l 1 ^^ l 0) ∧
    h 4 = (l 9 ^^ l 8 ^^ l 7 ^^ l 3 ^^ l 2 ^^ l 1 ^^ l 0) ∧
    h 8 = (l 6 ^^ l 5 ^^ l 4 ^^ l 3 ^^ l 2 ^^ l 1 ^^ l 0) ∧
    h 0 = (l 10 ^^ l 9 ^^ l 8 ^^ l 6 ^^ l 5 ^^ l 3 ^^ l 0)) ∧
  headerImage 0 = 0x0000#16 ∧ headerImage 2047 = 0xFFFF#16 ∧ headerImage 1024 = 0x000F#16 ∧
  headerImage 5 = 0xA005#16

/-- The bits that do not fit influence no bit of the codeword (the inference the spec draws in R151). -/
def Obligations.DroppedBitsInfluenceNothing : Prop :=
  ∀ (m : Nat) (d e : List Bool), d.take (cap (2 ^ m)) = e.take (cap (2 ^ m)) →
    hBlock (2 ^ m) d = hBlock (2 ^ m) e

/-- R146: SizeREF(n), the size of a build with SIZING = REF, is the least power of two at least 8n, and SizeREF(0) is
1. -/
def Obligations.SizeRefIsLeastPowerOfTwo : Prop :=
  (∀ n, IsLeastPow2 (fun q => 8 * n ≤ q) (sizeRef n) ∧ size .ref n = sizeRef n) ∧ sizeRef 0 = 1

/-- R147: SizeFIT(n), the size of a build with SIZING = FIT, is the least power of two whose capacity is at least 8n. -/
def Obligations.SizeFitIsLeastSufficientPowerOfTwo : Prop :=
  ∀ n, IsLeastPow2 (fun q => 8 * n ≤ cap q) (sizeFit n) ∧ size .fit n = sizeFit n

/-- The values of the two sizing functions, as R146 and R147 list them (the inferences the spec draws there): each row
is a first n, a last n and the length of every n from the one to the other. -/
def Obligations.SizesHaveTheListedValues : Prop :=
  (∀ b ∈ [(0, 0, 1), (1, 1, 8), (2, 2, 16), (3, 4, 32), (5, 8, 64), (9, 16, 128), (17, 32, 256), (33, 64, 512),
      (65, 128, 1024), (129, 256, 2048), (257, 512, 4096), (513, 1024, 8192), (1025, 2047, 16384)],
    ∀ n, b.1 ≤ n → n ≤ b.2.1 → sizeRef n = b.2.2) ∧
  ∀ b ∈ [(0, 0, 1), (1, 1, 16), (2, 3, 32), (4, 7, 64), (8, 15, 128), (16, 30, 256), (31, 62, 512),
      (63, 126, 1024), (127, 254, 2048), (255, 510, 4096), (511, 1022, 8192), (1023, 2046, 16384),
      (2047, 2047, 32768)],
    ∀ n, b.1 ≤ n → n ≤ b.2.1 → sizeFit n = b.2.2

/-- Under both sizings the length is a power of two, at least 8n, non-decreasing in n and within LMAX; and for n >= 1
SizeFIT is SizeREF or twice it (the inferences the spec draws in R148). -/
def Obligations.SizesFitTheBuffer : Prop :=
  (∀ z n, (∃ k, size z n = 2 ^ k) ∧ 8 * n ≤ size z n) ∧
  (∀ z n k, n ≤ k → size z n ≤ size z k) ∧
  (∀ (p : Params) n, n ≤ p.maxBytes → size p.sizing n ≤ lmax p) ∧
  ∀ n, 1 ≤ n → sizeFit n = sizeRef n ∨ sizeFit n = 2 * sizeRef n

/-- R150: Drop(n, L), that it is 0 under FIT, and for which n it is positive under REF. -/
def Obligations.DropCountsTheBitsThatDoNotFit : Prop :=
  (∀ n L, (dropCount n L : Int) = max 0 (8 * (n : Int) - (cap L : Int))) ∧
  (∀ n, dropCount n (sizeFit n) = 0) ∧
  (∀ n ≤ 2047, 0 < dropCount n (sizeRef n) ↔
    n ∈ [1, 2, 4, 8, 16, 31, 32, 63, 64, 127, 128, 255, 256, 511, 512, 1023, 1024, 2047]) ∧
  dropCount 1 8 = 4 ∧ dropCount 2 16 = 5 ∧ dropCount 4 32 = 6 ∧ dropCount 8 64 = 7 ∧ dropCount 31 256 = 1 ∧
  dropCount 2047 16384 = 7

/-! ### The whole machine -/

/-- The register values the spec gives a meaning are kept by every step: PBUF canonical and within its size, PEND legal,
BUSY and DONE never both 1, CW_LEN 0 or a power of two within LMAX, CW_DROP bounded, nothing dropped under FIT. No step
changes the parameters. -/
def Obligations.RegistersStayLegal : Prop :=
  ∀ s t : State, RegistersLegal s → step s = .next t → RegistersLegal t ∧ t.params = s.params

/-- The state after reset of every legal build has legal registers and codewords for outputs, and `State.reset` is such
a state (the parameters of `State.reset` are the model's choice, log 1). -/
def Obligations.ResetIsLegal : Prop :=
  (∀ p : Params, p.wf = true → RegistersLegal (State.resetOf p) ∧ OutputsAreCodewords (State.resetOf p)) ∧
  RegistersLegal State.reset

/-- The outputs are codewords at every step: HDR_OUT is always the header of a length of at most 2047, and CWBUF with
CW_LEN and CW_DROP always the payload codeword of a message that fits PBUF, or nothing since reset. -/
def Obligations.OutputsStayCodewords : Prop :=
  ∀ s t : State, RegistersLegal s → OutputsAreCodewords s → step s = .next t → OutputsAreCodewords t

/-- R201: a sticky flag that is 1 stays 1 until a write of STATUS with its bit 1 or a reset; setting a flag twice is
setting it once. The bit of an event's flag is its cause code (R202). -/
def Obligations.StickyFlagsClearOnlyByHostOrReset : Prop :=
  (∀ (s t : State) (f : EventFlag), step s = .next t → getFlag f s.flags = true → getFlag f t.flags = false →
    ∃ rest, s.sched = .reset :: rest ∨
      ∃ v : Word, s.sched = wr s.params 0x008 v :: rest ∧ v.getLsbD (causeCode f) = true) ∧
  [EventFlag.eIll, .eBusy, .eHdrOvf, .ePlen, .trunc].map causeCode = [2, 3, 4, 5, 6] ∧
  (∀ (s : State) (f : EventFlag), getFlag f s.flags = (statusWord s).getLsbD (causeCode f)) ∧
  ∀ (f : EventFlag) (x : Flags), getFlag f (setFlag f x) = true ∧ setFlag f (setFlag f x) = setFlag f x ∧
    ∀ g, g ≠ f → getFlag g (setFlag f x) = getFlag g x

/-- No step raises two flags (the inference the spec draws in R210). -/
def Obligations.NoStepRaisesTwoFlags : Prop :=
  ∀ (s t : State) (f g : EventFlag), step s = .next t →
    getFlag f s.flags = false → getFlag f t.flags = true →
    getFlag g s.flags = false → getFlag g t.flags = true → f = g

/-- R35: BUSY is 1 exactly when PEND is full; it becomes 1 only when a command is accepted and 0 only at the engine's
completion or reset. -/
def Obligations.BusyChangesOnlyByAcceptanceCompletionOrReset : Prop :=
  (∀ s : State, (statusWord s).getLsbD 0 = true ↔ ∃ q, s.pend = some q) ∧
  ∀ s t : State, step s = .next t →
    (busy s = false → busy t = true → ∃ rest v i,
      s.sched = wr s.params 0x004 v :: rest ∧ decode v = .ok i ∧
      t.pend = some { cmd := i, operand := if i = .encHdr then s.lenIn else s.plen }) ∧
    (busy s = true → busy t = false →
      s.sched = [] ∨ ∃ rest, s.sched = .engine :: rest ∨ s.sched = .reset :: rest)

/-- While a command is pending, every step but its completion and reset leaves it, LEN_IN, PLEN and PBUF as they were, so
the operands at completion are those at acceptance (the inferences the spec draws in R180 and R182). -/
def Obligations.OperandsAreHeldWhileBusy : Prop :=
  ∀ (s t : State) (q : Pending), s.pend = some q → step s = .next t →
    (t.pend = some q ∧ t.lenIn = s.lenIn ∧ t.plen = s.plen ∧ t.pbuf = s.pbuf) ∨
    (t.pend = none ∧ (s.sched = [] ∨ ∃ rest, s.sched = .engine :: rest ∨ s.sched = .reset :: rest))

/-- The outputs change only at a completion or reset (the inference the spec draws in R83: after a completion every
later read returns its outputs until the next command or reset). -/
def Obligations.OutputsChangeOnlyByCompletionOrReset : Prop :=
  ∀ s t : State, step s = .next t →
    (t.hdrOut = s.hdrOut ∧ t.cwLen = s.cwLen ∧ t.cwDrop = s.cwDrop ∧ t.cwb = s.cwb) ∨
    (busy s = true ∧ (s.sched = [] ∨ ∃ rest, s.sched = .engine :: rest)) ∨
    ∃ rest, s.sched = .reset :: rest

/-- R52: what the state holds after a reset from any state: every register, PEND empty without a completion, every PBUF
byte unwritten, CONFIG unchanged, CMD and every CWBUF word reading 0. (The schedule, the response and the draw counter are
the model's own, log 11.) -/
def Obligations.ResetRestoresEveryRegister : Prop :=
  ∀ (s : State) (rest : List Event), ∃ t, step (s.facing .reset rest) = .next t ∧
    statusWord t = 0 ∧ t.lenIn = 0 ∧ t.plen = 0 ∧ t.hdrOut = 0 ∧ t.cwLen = 0 ∧ t.cwDrop = 0 ∧ t.pend = none ∧
    (∀ k, t.pbuf.read k = none) ∧ t.params = s.params ∧ readValue t .config = readValue s .config ∧
    readValue t .cmd = 0 ∧ (∀ w, readValue t (.cwbuf w) = 0) ∧
    t.sched = rest ∧ t.draws = s.draws ∧ t.resp = none

/-- A pending command completes after finitely many steps unless reset comes first: at the latest when the schedule has
run out (R240; the bound is the model's, log 2). -/
def Obligations.CompletionIsEventual : Prop :=
  ∀ (s : State) (q : Pending), s.pend = some q →
    (∀ e ∈ s.sched, inWindow s.params e = true ∧ e ≠ .reset) →
    ∃ k ≤ s.sched.length, ∃ t, Host.Core.run Sys2Proof.core k s = .next t ∧ t.pend = some q ∧
      ∃ u, step t = .next u ∧ u.pend = none ∧ u.flags.done = true

/-- R243: a W1C write of STATUS and a completion are separate steps, and both orders are runs: W1C first leaves DONE 1
(and TRUNC 1 when bits are dropped), completion first leaves the cleared bits 0. -/
def Obligations.StatusClearAndCompletionInEitherOrder : Prop :=
  ∀ (s : State) (rest : List Event) (q : Pending) (v : Word), s.pend = some q →
    (∃ t u, step (s.facing (wr s.params 0x008 v) (.engine :: rest)) = .next t ∧ step t = .next u ∧
      u.flags.done = true ∧
      (q.cmd ≠ .encHdr → 0 < dropCount q.operand.toNat (size s.params.sizing q.operand.toNat) →
        u.flags.trunc = true)) ∧
    ∃ t u, step (s.facing .engine (wr s.params 0x008 v :: rest)) = .next t ∧ step t = .next u ∧
      (v.getLsbD 1 = true → u.flags.done = false) ∧ (v.getLsbD 6 = true → u.flags.trunc = false)

/-- Two payload encodes of the same written bytes with the same length and sizing leave the same outputs, whatever else
the two states hold (the inference the spec draws in R158; bytes at and above PLEN play no part, R181). -/
def Obligations.SameBytesGiveTheSameOutputs : Prop :=
  ∀ (s t : State) (rest rest' : List Event) (q : Pending), q.cmd ≠ .encHdr →
    s.pend = some q → t.pend = some q → s.params.sizing = t.params.sizing →
    (∀ k < q.operand.toNat, ∃ b, s.pbuf.read k = some b ∧ t.pbuf.read k = some b) →
    ∃ s' t', step (s.facing .engine rest) = .next s' ∧ step (t.facing .engine rest') = .next t' ∧
      SamePayload s' t' ∧ (q.cmd = .encMsg → s'.hdrOut = t'.hdrOut)

/-- R47: storage of CWBUF at indices at or above CW_LEN is never visible: two states that differ only there step alike,
with the same response, to states that differ only there, or stop alike. -/
def Obligations.StorageAboveCwLenIsNeverVisible : Prop :=
  ∀ s t : State, SameVisible s t →
    (∃ s' t', step s = .next s' ∧ step t = .next t' ∧ SameVisible s' t') ∨
    ∃ x, step s = .fault x ∧ step t = .fault x
end

