-- ==== Sys2Proof/Laws/Encoder.lean ====
section
/-! SUPPORT. The laws of the encoding functions: positions, the exclusive or over a set, the bits that data placement
leaves, and the bits of the finished block, so that no later proof unfolds the construction. -/

namespace Sys2Proof.Machine

open Sys2Proof

/-! ### positions -/

theorem isPow2_iff (i : Nat) : isPow2 i = true ↔ ∃ k, i = 2 ^ k := by
  constructor
  · intro h
    exact ⟨i.log2, (eq_of_beq h).symm⟩
  · rintro ⟨k, rfl⟩
    rw [isPow2, Nat.log2_two_pow, beq_self_eq_true]

@[simp] theorem isPow2_two_pow (k : Nat) : isPow2 (2 ^ k) = true := (isPow2_iff _).2 ⟨k, rfl⟩

@[simp] theorem isPow2_zero : isPow2 0 = false := by decide

theorem pos_of_isPow2 {i : Nat} (h : isPow2 i = true) : 0 < i := by
  obtain ⟨k, rfl⟩ := (isPow2_iff i).1 h
  exact Nat.two_pow_pos k

/-- Every index is the overall-parity index, a parity position or a data position, and only one of them (R121). -/
theorem isData_iff (i : Nat) : isData i = true ↔ i ≠ 0 ∧ isPow2 i = false := by
  simp [isData]

theorem mem_dataPos {i L : Nat} : i ∈ dataPos L ↔ i < L ∧ isData i = true := by
  simp [dataPos]

theorem mem_ppos {p L : Nat} : p ∈ ppos L ↔ p < L ∧ isPow2 p = true := by
  simp [ppos]

theorem mem_cover {i p L : Nat} : i ∈ cover p L ↔ i < L ∧ covers p i = true := by
  simp [cover]

theorem nodup_ppos (L : Nat) : (ppos L).Nodup := List.nodup_range.filter _

theorem cap_succ (i : Nat) : cap (i + 1) = cap i + (if isData i then 1 else 0) := by
  unfold cap dataPos
  rw [List.range_succ, List.filter_append, List.length_append]
  by_cases h : isData i = true <;> simp [h]

theorem cap_mono {i j : Nat} (h : i ≤ j) : cap i ≤ cap j := by
  induction j with
  | zero => rw [Nat.le_zero.1 h]
  | succ j ih =>
    rcases Nat.lt_or_ge j i with h' | h'
    · rw [show i = j + 1 by omega]
    · exact Nat.le_trans (ih h') (by rw [cap_succ]; exact Nat.le_add_right ..)

/-- A parity position covers a power of two only if it is that power itself, which is excluded (R133). -/
theorem isData_of_covers {p i : Nat} (hp : isPow2 p = true) (h : covers p i = true) : isData i = true := by
  obtain ⟨k, rfl⟩ := (isPow2_iff p).1 hp
  simp only [covers, Bool.and_eq_true, decide_eq_true_eq, bne_iff_ne, Nat.log2_two_pow] at h
  obtain ⟨⟨h0, hne⟩, hk⟩ := h
  refine (isData_iff i).2 ⟨by omega, ?_⟩
  by_contra hc
  obtain ⟨j, rfl⟩ := (isPow2_iff i).1 (by simpa using hc)
  rw [Nat.testBit_two_pow] at hk
  exact hne (by rw [of_decide_eq_true hk])

/-! ### exclusive or over a set -/

@[simp] theorem xorOver_nil (e : Nat → Bool) : xorOver [] e = false := rfl

@[simp] theorem xorOver_cons (i : Nat) (S : List Nat) (e : Nat → Bool) :
    xorOver (i :: S) e = (e i ^^ xorOver S e) := rfl

theorem xorOver_append (S T : List Nat) (e : Nat → Bool) :
    xorOver (S ++ T) e = (xorOver S e ^^ xorOver T e) := by
  induction S with
  | nil => simp
  | cons i S ih => simp [ih]

theorem xorOver_congr {S : List Nat} {e f : Nat → Bool} (h : ∀ i ∈ S, e i = f i) :
    xorOver S e = xorOver S f := by
  induction S with
  | nil => rfl
  | cons i S ih =>
    rw [xorOver_cons, xorOver_cons, h i (List.mem_cons_self ..), ih fun j hj => h j (List.mem_cons_of_mem _ hj)]

theorem xorOver_const_false (S : List Nat) : xorOver S (fun _ => false) = false := by
  induction S with
  | nil => rfl
  | cons i S ih => simp [ih]

theorem xorOver_xor (S : List Nat) (e f : Nat → Bool) :
    xorOver S (fun i => e i ^^ f i) = (xorOver S e ^^ xorOver S f) := by
  induction S with
  | nil => rfl
  | cons i S ih => simp only [xorOver_cons, ih]; cases e i <;> cases f i <;> simp

theorem xorOver_perm {S T : List Nat} (h : S.Perm T) (e : Nat → Bool) : xorOver S e = xorOver T e := by
  induction h with
  | nil => rfl
  | cons i _ ih => simp [ih]
  | swap i j S => simp [Bool.xor_left_comm]
  | trans _ _ ih1 ih2 => exact ih1.trans ih2

theorem xorOver_map (g : Nat → Nat) (S : List Nat) (e : Nat → Bool) :
    xorOver (S.map g) e = xorOver S (fun i => e (g i)) := by
  induction S with
  | nil => rfl
  | cons i S ih => simp [ih]

/-- The one-pass exclusive or is the exclusive or over the picked indices of the sequence. -/
theorem xorPicked_eq (sel : Nat → Bool) (c : List Bool) (k : Nat) :
    xorPicked sel k c = xorOver ((List.range c.length).filter fun i => sel (i + k)) (bitAt c) := by
  induction c generalizing k with
  | nil => rfl
  | cons b bs ih =>
    rw [xorPicked, ih, List.length_cons, List.range_succ_eq_map, List.filter_cons, List.filter_map]
    have hshift : (List.filter ((fun i => sel (i + k)) ∘ Nat.succ) (List.range bs.length)) =
        List.filter (fun i => sel (i + (k + 1))) (List.range bs.length) := by
      refine List.filter_congr fun i _ => ?_
      simp [Function.comp, Nat.add_comm, Nat.add_left_comm]
    have htail : xorOver ((List.filter (fun i => sel (i + (k + 1))) (List.range bs.length)).map Nat.succ)
        (bitAt (b :: bs)) =
        xorOver (List.filter (fun i => sel (i + (k + 1))) (List.range bs.length)) (bitAt bs) := by
      rw [xorOver_map]
      exact xorOver_congr fun i _ => by simp [bitAt]
    rw [hshift, ← htail, Nat.zero_add]
    cases h : sel k <;> simp [bitAt]

theorem xorPicked_zero (sel : Nat → Bool) (c : List Bool) :
    xorPicked sel 0 c = xorOver ((List.range c.length).filter sel) (bitAt c) := by
  simpa using xorPicked_eq sel c 0

/-! ### bits and lengths -/

theorem bitAt_set (c : List Bool) (p i : Nat) (b : Bool) :
    bitAt (c.set p b) i = if p = i ∧ i < c.length then b else bitAt c i := by
  unfold bitAt
  simp only [List.getD_eq_getElem?_getD, List.getElem?_set]
  by_cases hp : p = i
  · subst hp
    by_cases hl : p < c.length <;> simp [hl]
  · simp [hp]

theorem bitAt_eq_false_of_le {c : List Bool} {i : Nat} (h : c.length ≤ i) : bitAt c i = false := by
  rw [bitAt, List.getD_eq_default _ _ h]

@[simp] theorem length_bits8 (b : Byte) : (bits8 b).length = 8 := by simp [bits8]

@[simp] theorem length_bits11 (len : Nat) : (bits11 len).length = 11 := by simp [bits11, Config.hdrDataBits]

@[simp] theorem length_msgBits (m : List Byte) : (msgBits m).length = 8 * m.length := by
  induction m with
  | nil => rfl
  | cons b m ih => simp only [msgBits, List.flatMap_cons, List.length_append, length_bits8, List.length_cons] at ih ⊢; omega

@[simp] theorem length_placeFrom (k i : Nat) (d : List Bool) : (placeFrom k i d).length = k := by
  induction k generalizing i d with
  | zero => rfl
  | succ k ih => simp only [placeFrom]; split <;> simp [ih]

@[simp] theorem length_place (L : Nat) (d : List Bool) : (place L d).length = L := length_placeFrom ..

@[simp] theorem length_setParity (c : List Bool) (p : Nat) : (setParity c p).length = c.length := by
  simp [setParity]

@[simp] theorem length_setOverall (c : List Bool) : (setOverall c).length = c.length := by
  simp [setOverall]

@[simp] theorem length_foldl_setParity (ps : List Nat) (c : List Bool) :
    (ps.foldl setParity c).length = c.length := by
  induction ps generalizing c with
  | nil => rfl
  | cons p ps ih => simp [ih]

@[simp] theorem length_hBlockInOrder (ps : List Nat) (L : Nat) (d : List Bool) :
    (hBlockInOrder ps L d).length = L := by
  simp [hBlockInOrder]

theorem length_hBlock (L : Nat) (d : List Bool) : (hBlock L d).length = L := length_hBlockInOrder ..

/-- What data placement leaves at an index (R130, R137): at a data position the data bit whose number is the count of
data positions below it; the placeholder elsewhere. -/
theorem bitAt_placeFrom (k i j : Nat) (d : List Bool) :
    bitAt (placeFrom k i d) j =
      if j < k ∧ isData (i + j) = true then bitAt d (cap (i + j) - cap i) else false := by
  induction k generalizing i j d with
  | zero => simp [placeFrom, bitAt]
  | succ k ih =>
    simp only [placeFrom]
    cases j with
    | zero =>
      by_cases h : isData i = true
      · cases d <;> simp [h, bitAt]
      · simp [h, bitAt]
    | succ j =>
      have hc := cap_succ i
      have hidx : i + 1 + j = i + (j + 1) := by omega
      by_cases h : isData i = true
      · rw [if_pos h]
        have hstep : bitAt (d.headD false :: placeFrom k (i + 1) d.tail) (j + 1) =
            bitAt (placeFrom k (i + 1) d.tail) j := by simp [bitAt]
        rw [hstep, ih, hidx, hc, if_pos h]
        by_cases hj : j < k ∧ isData (i + (j + 1)) = true
        · rw [if_pos hj, if_pos ⟨by omega, hj.2⟩]
          have hge : cap i + 1 ≤ cap (i + (j + 1)) := by
            have h1 := hc
            rw [if_pos h] at h1
            have h2 : cap (i + 1) ≤ cap (i + 1 + j) := cap_mono (Nat.le_add_right ..)
            rw [hidx] at h2
            omega
          have hd : bitAt d.tail (cap (i + (j + 1)) - (cap i + 1)) =
              bitAt d (cap (i + (j + 1)) - (cap i + 1) + 1) := by
            cases d <;> simp [bitAt]
          rw [hd]
          congr 1
          omega
        · rw [if_neg hj, if_neg (by rintro ⟨h1, h2⟩; exact hj ⟨by omega, h2⟩)]
      · rw [if_neg h]
        have hstep : bitAt (false :: placeFrom k (i + 1) d) (j + 1) = bitAt (placeFrom k (i + 1) d) j := by
          simp [bitAt]
        rw [hstep, ih, hidx, hc, if_neg h]
        by_cases hj : j < k ∧ isData (i + (j + 1)) = true
        · simp only [Nat.add_zero, if_pos hj, if_pos (show j + 1 < k + 1 ∧ _ from ⟨by omega, hj.2⟩)]
        · rw [if_neg hj, if_neg (by rintro ⟨h1, h2⟩; exact hj ⟨by omega, h2⟩)]

theorem bitAt_place (L i : Nat) (d : List Bool) :
    bitAt (place L d) i = if i < L ∧ isData i = true then bitAt d (cap i) else false := by
  have h0 : cap 0 = 0 := by decide
  simpa [place, h0] using bitAt_placeFrom L 0 i d

/-- One parity level changes the parity position it sets and nothing else (R131). -/
theorem bitAt_setParity (c : List Bool) (p i : Nat) :
    bitAt (setParity c p) i =
      if p = i ∧ i < c.length then xorOver (cover p c.length) (bitAt c) else bitAt c i := by
  rw [setParity, bitAt_set, xorPicked_zero]; rfl

/-- After parity levels for distinct powers of two, in whatever order: each level's position holds the exclusive or of
its covering set as data placement left it, every other index is unchanged (R131, R134). -/
theorem bitAt_foldl_setParity (ps : List Nat) (c : List Bool) (hps : ∀ p ∈ ps, isPow2 p = true) (i : Nat) :
    bitAt (ps.foldl setParity c) i =
      if i ∈ ps ∧ i < c.length then xorOver (cover i c.length) (bitAt c) else bitAt c i := by
  induction ps generalizing c with
  | nil => simp
  | cons p ps ih =>
    have hp := hps p (List.mem_cons_self ..)
    rw [List.foldl_cons, ih _ fun q hq => hps q (List.mem_cons_of_mem _ hq), length_setParity]
    have hdata : ∀ q, isPow2 q = true →
        xorOver (cover q c.length) (bitAt (setParity c p)) = xorOver (cover q c.length) (bitAt c) := by
      intro q hq
      refine xorOver_congr fun j hj => ?_
      have hj' := isData_of_covers hq (mem_cover.1 hj).2
      rw [bitAt_setParity, if_neg]
      rintro ⟨rfl, -⟩
      exact absurd hp (by simp [((isData_iff p).1 hj').2])
    by_cases hmem : i ∈ ps ∧ i < c.length
    · rw [if_pos hmem, if_pos ⟨List.mem_cons_of_mem _ hmem.1, hmem.2⟩,
        hdata i (hps i (List.mem_cons_of_mem _ hmem.1))]
    · rw [if_neg hmem, bitAt_setParity]
      by_cases hpi : p = i ∧ i < c.length
      · obtain ⟨rfl, hl⟩ := hpi
        rw [if_pos ⟨rfl, hl⟩, if_pos ⟨List.mem_cons_self .., hl⟩]
      · rw [if_neg hpi, if_neg]
        rintro ⟨h1, h2⟩
        rcases List.mem_cons.1 h1 with rfl | h1
        · exact hpi ⟨rfl, h2⟩
        · exact hmem ⟨h1, h2⟩

/-- The bits of a finished block away from index 0, whatever the order of the parity levels. -/
theorem bitAt_hBlockInOrder_pos {ps : List Nat} {L : Nat} (hps : ps.Perm (ppos L)) (d : List Bool) {i : Nat}
    (hi : i ≠ 0) :
    bitAt (hBlockInOrder ps L d) i =
      if i < L ∧ isPow2 i = true then xorOver (cover i L) (bitAt (place L d)) else bitAt (place L d) i := by
  have hpow : ∀ p ∈ ps, isPow2 p = true := fun p hp => (mem_ppos.1 (hps.mem_iff.1 hp)).2
  rw [hBlockInOrder, setOverall, bitAt_set, if_neg (by rintro ⟨h, -⟩; exact hi h.symm),
    bitAt_foldl_setParity _ _ hpow, length_place]
  by_cases h : i < L ∧ isPow2 i = true
  · rw [if_pos h, if_pos ⟨hps.mem_iff.2 (mem_ppos.2 h), h.1⟩]
  · rw [if_neg h, if_neg]
    rintro ⟨h1, h2⟩
    exact h ⟨h2, hpow i h1⟩

/-- A finished block agrees with data placement at every data position. -/
theorem bitAt_hBlock_data (L : Nat) (d : List Bool) {i : Nat} (hi : isData i = true) :
    bitAt (hBlock L d) i = bitAt (place L d) i := by
  obtain ⟨h0, hp⟩ := (isData_iff i).1 hi
  rw [hBlock, bitAt_hBlockInOrder_pos (List.Perm.refl _) d h0, if_neg (by simp [hp])]

/-- A finished block at index 0: the exclusive or of every other bit (R135). -/
theorem bitAt_hBlockInOrder_zero (ps : List Nat) (L : Nat) (d : List Bool) :
    bitAt (hBlockInOrder ps L d) 0 =
      xorOver ((List.range L).filter fun i => decide (1 ≤ i)) (bitAt (hBlockInOrder ps L d)) := by
  have hrest : ∀ i ∈ (List.range L).filter (fun i => decide (1 ≤ i)),
      bitAt (hBlockInOrder ps L d) i = bitAt (ps.foldl setParity (place L d)) i := by
    intro i hi
    have h1 : 1 ≤ i := by simpa using (List.mem_filter.1 hi).2
    rw [hBlockInOrder, setOverall, bitAt_set, if_neg (by rintro ⟨h, -⟩; omega)]
  rw [xorOver_congr hrest, hBlockInOrder, setOverall, bitAt_set, xorPicked_zero, length_foldl_setParity,
    length_place]
  by_cases hL : 0 < L
  · rw [if_pos ⟨rfl, hL⟩]
  · have hL0 : L = 0 := by omega
    subst hL0
    rw [if_neg (by simp)]
    exact bitAt_eq_false_of_le (by simp)

/-- Two sequences of one length with the same bits are the same. -/
theorem ext_bitAt {c c' : List Bool} (hl : c.length = c'.length) (h : ∀ i < c.length, bitAt c i = bitAt c' i) :
    c = c' := by
  refine List.ext_getElem hl fun i h1 h2 => ?_
  have := h i h1
  rwa [bitAt, bitAt, List.getD_eq_getElem _ _ h1, List.getD_eq_getElem _ _ h2] at this

/-! ### packing -/

theorem testBit_packNat (c : List Bool) (i : Nat) : (packNat c).testBit i = bitAt c i := by
  induction c generalizing i with
  | nil => simp [packNat, bitAt]
  | cons b bs ih =>
    cases i with
    | zero =>
      rw [packNat, Nat.testBit_zero]
      cases b <;> simp [bitAt]
    | succ i =>
      have hdiv : (b.toNat + 2 * packNat bs) / 2 = packNat bs := by
        rw [Nat.add_mul_div_left _ _ (by decide)]; cases b <;> simp
      rw [packNat, Nat.testBit_succ, hdiv, ih]
      simp [bitAt]

/-- Register bit `i` of a packed sequence is its element `i` (R80). -/
theorem getLsbD_packBits (w : Nat) (c : List Bool) (i : Nat) :
    (packBits w c).getLsbD i = (decide (i < w) && bitAt c i) := by
  rw [packBits, BitVec.getLsbD_ofNat, testBit_packNat]

end Sys2Proof.Machine
end

