-- ==== Sys2Proof/Laws/Memory.lean ====
section
/-! SUPPORT. The laws of PBUF as a canonical list of written bytes: read after write, the canonical form, and that equal
memories are equal data. -/

namespace Sys2Proof.Machine

open Sys2Proof

@[simp] theorem Memory.read_nil (k : Nat) : Memory.read [] k = none := rfl

theorem Memory.read_cons (a : Nat) (b : Byte) (m : Memory) (k : Nat) :
    Memory.read ((a, b) :: m) k = if k = a then some b else Memory.read m k := rfl

/-- After reset PBUF is in its canonical form. -/
theorem Memory.wf_resetOf (p : Params) : Memory.wf (State.resetOf p).pbuf := List.Pairwise.nil

/-- No byte below every listed index is listed. -/
theorem Memory.read_eq_none_of_lt {m : Memory} {k : Nat} (h : ∀ c ∈ m, k < c.1) : m.read k = none := by
  induction m with
  | nil => rfl
  | cons c m ih =>
    obtain ⟨a, b⟩ := c
    have hk : k < a := h (a, b) (List.mem_cons_self ..)
    rw [Memory.read_cons, if_neg (by omega)]
    exact ih fun c hc => h c (List.mem_cons_of_mem _ hc)

theorem Memory.read_write_same (m : Memory) (k : Nat) (v : Byte) : (m.write k v).read k = some v := by
  induction m with
  | nil => simp [Memory.write, Memory.read_cons]
  | cons c m ih =>
    obtain ⟨a, b⟩ := c
    simp only [Memory.write]
    split
    · simp [Memory.read_cons]
    · split
      · simp [Memory.read_cons]
      · next h => rw [Memory.read_cons, if_neg h, ih]

theorem Memory.read_write_other (m : Memory) {k j : Nat} (v : Byte) (h : j ≠ k) :
    (m.write k v).read j = m.read j := by
  induction m with
  | nil => simp [Memory.write, Memory.read_cons, h]
  | cons c m ih =>
    obtain ⟨a, b⟩ := c
    simp only [Memory.write]
    split
    · rw [Memory.read_cons, if_neg h]
    · split
      · next hka => subst hka; simp [Memory.read_cons, h]
      · simp only [Memory.read_cons, ih]

/-- The indices a write lists: the old ones and its own. -/
theorem Memory.mem_write {m : Memory} {k : Nat} {v : Byte} {c : Host.Cell} (h : c ∈ m.write k v) :
    c.1 = k ∨ c ∈ m := by
  induction m with
  | nil => left; simp [Memory.write] at h; exact congrArg Prod.fst h
  | cons d m ih =>
    obtain ⟨a, b⟩ := d
    simp only [Memory.write] at h
    split at h
    · rcases List.mem_cons.1 h with rfl | h
      · exact .inl rfl
      · exact .inr h
    · split at h
      · rcases List.mem_cons.1 h with rfl | h
        · exact .inl rfl
        · exact .inr (List.mem_cons_of_mem _ h)
      · rcases List.mem_cons.1 h with rfl | h
        · exact .inr (List.mem_cons_self ..)
        · exact (ih h).imp_right (List.mem_cons_of_mem _)

/-- A write keeps the canonical form. -/
theorem Memory.wf_write {m : Memory} (h : Memory.wf m) (k : Nat) (v : Byte) : Memory.wf (m.write k v) := by
  induction m with
  | nil => exact List.pairwise_singleton ..
  | cons c m ih =>
    obtain ⟨a, b⟩ := c
    obtain ⟨ha, hm⟩ := List.pairwise_cons.1 h
    simp only [Memory.write]
    split
    · next hk =>
      refine List.pairwise_cons.2 ⟨fun d hd => ?_, h⟩
      rcases List.mem_cons.1 hd with rfl | hd
      · exact hk
      · exact Nat.lt_trans hk (ha d hd)
    · split
      · next hk => subst hk; exact List.pairwise_cons.2 ⟨ha, hm⟩
      · refine List.pairwise_cons.2 ⟨fun d hd => ?_, ih hm⟩
        rcases Memory.mem_write hd with h' | hd
        · show a < d.1; omega
        · exact ha d hd

/-- A word write keeps the canonical form. -/
theorem Memory.wf_writeWord {m : Memory} (h : Memory.wf m) (j : Nat) (v : Word) : Memory.wf (m.writeWord j v) :=
  Memory.wf_write (Memory.wf_write (Memory.wf_write (Memory.wf_write h _ _) _ _) _ _) _ _

/-- A word write lists no index beyond its four bytes and the old ones. -/
theorem Memory.mem_writeWord {m : Memory} {j : Nat} {v : Word} {c : Host.Cell} (h : c ∈ m.writeWord j v) :
    c.1 < 4 * j + 4 ∨ c ∈ m := by
  simp only [Memory.writeWord] at h
  rcases Memory.mem_write h with h | h
  · omega
  rcases Memory.mem_write h with h | h
  · omega
  rcases Memory.mem_write h with h | h
  · omega
  rcases Memory.mem_write h with h | h
  · omega
  exact .inr h

/-- A word write puts lane `t` at byte `4j + t` (R77, R78). -/
theorem Memory.read_writeWord_lane (m : Memory) (j : Nat) (v : Word) {t : Nat} (ht : t < 4) :
    (m.writeWord j v).read (4 * j + t) = some (lane v t) := by
  unfold Memory.writeWord
  have : t = 0 ∨ t = 1 ∨ t = 2 ∨ t = 3 := by omega
  rcases this with rfl | rfl | rfl | rfl
  · rw [Memory.read_write_other _ _ (by omega), Memory.read_write_other _ _ (by omega),
      Memory.read_write_other _ _ (by omega)]
    exact Memory.read_write_same _ _ _
  · rw [Memory.read_write_other _ _ (by omega), Memory.read_write_other _ _ (by omega)]
    exact Memory.read_write_same _ _ _
  · rw [Memory.read_write_other _ _ (by omega)]
    exact Memory.read_write_same _ _ _
  · exact Memory.read_write_same _ _ _

/-- A word write leaves every byte outside its word as it was. -/
theorem Memory.read_writeWord_other (m : Memory) {j k : Nat} (v : Word) (h : k < 4 * j ∨ 4 * j + 4 ≤ k) :
    (m.writeWord j v).read k = m.read k := by
  unfold Memory.writeWord
  rw [Memory.read_write_other _ _ (by omega), Memory.read_write_other _ _ (by omega),
    Memory.read_write_other _ _ (by omega), Memory.read_write_other _ _ (by omega)]

/-- Two canonical memories that read the same everywhere are the same data. -/
theorem Memory.ext_read {m n : Memory} (hm : Memory.wf m) (hn : Memory.wf n) (h : ∀ k, m.read k = n.read k) :
    m = n := by
  induction m generalizing n with
  | nil =>
    cases n with
    | nil => rfl
    | cons c n =>
      obtain ⟨a, b⟩ := c
      have := h a
      simp [Memory.read_cons] at this
  | cons c m ih =>
    obtain ⟨a, b⟩ := c
    obtain ⟨ha, hm'⟩ := List.pairwise_cons.1 hm
    cases n with
    | nil => have := h a; simp [Memory.read_cons] at this
    | cons d n =>
      obtain ⟨a', b'⟩ := d
      obtain ⟨ha', hn'⟩ := List.pairwise_cons.1 hn
      have haa : a = a' := by
        by_contra hne
        rcases Nat.lt_or_gt_of_ne hne with hlt | hgt
        · have h1 := h a
          rw [Memory.read_cons, if_pos rfl, Memory.read_cons, if_neg hne,
            Memory.read_eq_none_of_lt fun c hc => Nat.lt_trans hlt (ha' c hc)] at h1
          cases h1
        · have h1 := h a'
          rw [Memory.read_cons, if_neg (Ne.symm hne), Memory.read_cons, if_pos rfl,
            Memory.read_eq_none_of_lt fun c hc => Nat.lt_trans hgt (ha c hc)] at h1
          cases h1
      subst haa
      have hb : b = b' := by
        have h1 := h a
        simpa [Memory.read_cons] using h1
      subst hb
      congr 1
      refine ih hm' hn' fun k => ?_
      by_cases hk : k = a
      · subst hk
        rw [Memory.read_eq_none_of_lt fun c hc => ha c hc, Memory.read_eq_none_of_lt fun c hc => ha' c hc]
      · have h1 := h k
        simpa [Memory.read_cons, hk] using h1

end Sys2Proof.Machine
end

