-- ==== Sys2Proof/Laws/State.lean ====
section
/-! SUPPORT. One lemma per field per update of the state, so that no proof unfolds a record update. -/

namespace Sys2Proof.Machine

open Sys2Proof

/-! ### raiseFlag -/

@[simp] theorem raiseFlag_params (f : EventFlag) (s : State) : (raiseFlag f s).params = s.params := rfl
@[simp] theorem raiseFlag_flags (f : EventFlag) (s : State) : (raiseFlag f s).flags = setFlag f s.flags := rfl
@[simp] theorem raiseFlag_lenIn (f : EventFlag) (s : State) : (raiseFlag f s).lenIn = s.lenIn := rfl
@[simp] theorem raiseFlag_plen (f : EventFlag) (s : State) : (raiseFlag f s).plen = s.plen := rfl
@[simp] theorem raiseFlag_hdrOut (f : EventFlag) (s : State) : (raiseFlag f s).hdrOut = s.hdrOut := rfl
@[simp] theorem raiseFlag_cwLen (f : EventFlag) (s : State) : (raiseFlag f s).cwLen = s.cwLen := rfl
@[simp] theorem raiseFlag_cwDrop (f : EventFlag) (s : State) : (raiseFlag f s).cwDrop = s.cwDrop := rfl
@[simp] theorem raiseFlag_pbuf (f : EventFlag) (s : State) : (raiseFlag f s).pbuf = s.pbuf := rfl
@[simp] theorem raiseFlag_cwb (f : EventFlag) (s : State) : (raiseFlag f s).cwb = s.cwb := rfl
@[simp] theorem raiseFlag_pend (f : EventFlag) (s : State) : (raiseFlag f s).pend = s.pend := rfl
@[simp] theorem raiseFlag_sched (f : EventFlag) (s : State) : (raiseFlag f s).sched = s.sched := rfl
@[simp] theorem raiseFlag_resp (f : EventFlag) (s : State) : (raiseFlag f s).resp = s.resp := rfl
@[simp] theorem raiseFlag_draws (f : EventFlag) (s : State) : (raiseFlag f s).draws = s.draws := rfl

/-! ### writeStatus -/

@[simp] theorem writeStatus_params (v : Word) (s : State) : (writeStatus v s).params = s.params := rfl
@[simp] theorem writeStatus_flags (v : Word) (s : State) : (writeStatus v s).flags = clearFlags v s.flags := rfl
@[simp] theorem writeStatus_lenIn (v : Word) (s : State) : (writeStatus v s).lenIn = s.lenIn := rfl
@[simp] theorem writeStatus_plen (v : Word) (s : State) : (writeStatus v s).plen = s.plen := rfl
@[simp] theorem writeStatus_hdrOut (v : Word) (s : State) : (writeStatus v s).hdrOut = s.hdrOut := rfl
@[simp] theorem writeStatus_cwLen (v : Word) (s : State) : (writeStatus v s).cwLen = s.cwLen := rfl
@[simp] theorem writeStatus_cwDrop (v : Word) (s : State) : (writeStatus v s).cwDrop = s.cwDrop := rfl
@[simp] theorem writeStatus_pbuf (v : Word) (s : State) : (writeStatus v s).pbuf = s.pbuf := rfl
@[simp] theorem writeStatus_cwb (v : Word) (s : State) : (writeStatus v s).cwb = s.cwb := rfl
@[simp] theorem writeStatus_pend (v : Word) (s : State) : (writeStatus v s).pend = s.pend := rfl
@[simp] theorem writeStatus_sched (v : Word) (s : State) : (writeStatus v s).sched = s.sched := rfl
@[simp] theorem writeStatus_resp (v : Word) (s : State) : (writeStatus v s).resp = s.resp := rfl
@[simp] theorem writeStatus_draws (v : Word) (s : State) : (writeStatus v s).draws = s.draws := rfl

/-! ### accept -/

@[simp] theorem accept_params (i : Instr) (s : State) : (accept i s).params = s.params := rfl
@[simp] theorem accept_flags (i : Instr) (s : State) : (accept i s).flags = { s.flags with done := false } := rfl
@[simp] theorem accept_lenIn (i : Instr) (s : State) : (accept i s).lenIn = s.lenIn := rfl
@[simp] theorem accept_plen (i : Instr) (s : State) : (accept i s).plen = s.plen := rfl
@[simp] theorem accept_hdrOut (i : Instr) (s : State) : (accept i s).hdrOut = s.hdrOut := rfl
@[simp] theorem accept_cwLen (i : Instr) (s : State) : (accept i s).cwLen = s.cwLen := rfl
@[simp] theorem accept_cwDrop (i : Instr) (s : State) : (accept i s).cwDrop = s.cwDrop := rfl
@[simp] theorem accept_pbuf (i : Instr) (s : State) : (accept i s).pbuf = s.pbuf := rfl
@[simp] theorem accept_cwb (i : Instr) (s : State) : (accept i s).cwb = s.cwb := rfl
@[simp] theorem accept_pend (i : Instr) (s : State) : (accept i s).pend = some { cmd := i, operand := scalarOperand i s } := rfl
@[simp] theorem accept_sched (i : Instr) (s : State) : (accept i s).sched = s.sched := rfl
@[simp] theorem accept_resp (i : Instr) (s : State) : (accept i s).resp = s.resp := rfl
@[simp] theorem accept_draws (i : Instr) (s : State) : (accept i s).draws = s.draws := rfl

/-! ### finish -/

@[simp] theorem finish_params (s : State) : (finish s).params = s.params := rfl
@[simp] theorem finish_flags (s : State) : (finish s).flags = { s.flags with done := true } := rfl
@[simp] theorem finish_lenIn (s : State) : (finish s).lenIn = s.lenIn := rfl
@[simp] theorem finish_plen (s : State) : (finish s).plen = s.plen := rfl
@[simp] theorem finish_hdrOut (s : State) : (finish s).hdrOut = s.hdrOut := rfl
@[simp] theorem finish_cwLen (s : State) : (finish s).cwLen = s.cwLen := rfl
@[simp] theorem finish_cwDrop (s : State) : (finish s).cwDrop = s.cwDrop := rfl
@[simp] theorem finish_pbuf (s : State) : (finish s).pbuf = s.pbuf := rfl
@[simp] theorem finish_cwb (s : State) : (finish s).cwb = s.cwb := rfl
@[simp] theorem finish_pend (s : State) : (finish s).pend = none := rfl
@[simp] theorem finish_sched (s : State) : (finish s).sched = s.sched := rfl
@[simp] theorem finish_resp (s : State) : (finish s).resp = s.resp := rfl
@[simp] theorem finish_draws (s : State) : (finish s).draws = s.draws := rfl

/-! ### respond -/

@[simp] theorem respond_params (r : Response) (s : State) : (respond r s).params = s.params := rfl
@[simp] theorem respond_flags (r : Response) (s : State) : (respond r s).flags = s.flags := rfl
@[simp] theorem respond_lenIn (r : Response) (s : State) : (respond r s).lenIn = s.lenIn := rfl
@[simp] theorem respond_plen (r : Response) (s : State) : (respond r s).plen = s.plen := rfl
@[simp] theorem respond_hdrOut (r : Response) (s : State) : (respond r s).hdrOut = s.hdrOut := rfl
@[simp] theorem respond_cwLen (r : Response) (s : State) : (respond r s).cwLen = s.cwLen := rfl
@[simp] theorem respond_cwDrop (r : Response) (s : State) : (respond r s).cwDrop = s.cwDrop := rfl
@[simp] theorem respond_pbuf (r : Response) (s : State) : (respond r s).pbuf = s.pbuf := rfl
@[simp] theorem respond_cwb (r : Response) (s : State) : (respond r s).cwb = s.cwb := rfl
@[simp] theorem respond_pend (r : Response) (s : State) : (respond r s).pend = s.pend := rfl
@[simp] theorem respond_sched (r : Response) (s : State) : (respond r s).sched = s.sched := rfl
@[simp] theorem respond_resp (r : Response) (s : State) : (respond r s).resp = some r := rfl
@[simp] theorem respond_draws (r : Response) (s : State) : (respond r s).draws = s.draws := rfl

/-! ### useDraws -/

@[simp] theorem useDraws_params (n : Nat) (s : State) : (useDraws n s).params = s.params := rfl
@[simp] theorem useDraws_flags (n : Nat) (s : State) : (useDraws n s).flags = s.flags := rfl
@[simp] theorem useDraws_lenIn (n : Nat) (s : State) : (useDraws n s).lenIn = s.lenIn := rfl
@[simp] theorem useDraws_plen (n : Nat) (s : State) : (useDraws n s).plen = s.plen := rfl
@[simp] theorem useDraws_hdrOut (n : Nat) (s : State) : (useDraws n s).hdrOut = s.hdrOut := rfl
@[simp] theorem useDraws_cwLen (n : Nat) (s : State) : (useDraws n s).cwLen = s.cwLen := rfl
@[simp] theorem useDraws_cwDrop (n : Nat) (s : State) : (useDraws n s).cwDrop = s.cwDrop := rfl
@[simp] theorem useDraws_pbuf (n : Nat) (s : State) : (useDraws n s).pbuf = s.pbuf := rfl
@[simp] theorem useDraws_cwb (n : Nat) (s : State) : (useDraws n s).cwb = s.cwb := rfl
@[simp] theorem useDraws_pend (n : Nat) (s : State) : (useDraws n s).pend = s.pend := rfl
@[simp] theorem useDraws_sched (n : Nat) (s : State) : (useDraws n s).sched = s.sched := rfl
@[simp] theorem useDraws_resp (n : Nat) (s : State) : (useDraws n s).resp = s.resp := rfl
@[simp] theorem useDraws_draws (n : Nat) (s : State) : (useDraws n s).draws = s.draws + n := rfl

/-! ### applyReset -/

@[simp] theorem applyReset_params (s : State) : (applyReset s).params = s.params := rfl
@[simp] theorem applyReset_flags (s : State) : (applyReset s).flags = Flags.reset := rfl
@[simp] theorem applyReset_lenIn (s : State) : (applyReset s).lenIn = 0 := rfl
@[simp] theorem applyReset_plen (s : State) : (applyReset s).plen = 0 := rfl
@[simp] theorem applyReset_hdrOut (s : State) : (applyReset s).hdrOut = 0 := rfl
@[simp] theorem applyReset_cwLen (s : State) : (applyReset s).cwLen = 0 := rfl
@[simp] theorem applyReset_cwDrop (s : State) : (applyReset s).cwDrop = 0 := rfl
@[simp] theorem applyReset_pbuf (s : State) : (applyReset s).pbuf = [] := rfl
@[simp] theorem applyReset_cwb (s : State) : (applyReset s).cwb = [] := rfl
@[simp] theorem applyReset_pend (s : State) : (applyReset s).pend = none := rfl
@[simp] theorem applyReset_sched (s : State) : (applyReset s).sched = s.sched := rfl
@[simp] theorem applyReset_resp (s : State) : (applyReset s).resp = none := rfl
@[simp] theorem applyReset_draws (s : State) : (applyReset s).draws = s.draws := rfl

/-! ### storeLenIn -/

@[simp] theorem storeLenIn_params (v : Word) (s : State) : (storeLenIn v s).params = s.params := rfl
@[simp] theorem storeLenIn_flags (v : Word) (s : State) : (storeLenIn v s).flags = s.flags := rfl
@[simp] theorem storeLenIn_lenIn (v : Word) (s : State) : (storeLenIn v s).lenIn = v := rfl
@[simp] theorem storeLenIn_plen (v : Word) (s : State) : (storeLenIn v s).plen = s.plen := rfl
@[simp] theorem storeLenIn_hdrOut (v : Word) (s : State) : (storeLenIn v s).hdrOut = s.hdrOut := rfl
@[simp] theorem storeLenIn_cwLen (v : Word) (s : State) : (storeLenIn v s).cwLen = s.cwLen := rfl
@[simp] theorem storeLenIn_cwDrop (v : Word) (s : State) : (storeLenIn v s).cwDrop = s.cwDrop := rfl
@[simp] theorem storeLenIn_pbuf (v : Word) (s : State) : (storeLenIn v s).pbuf = s.pbuf := rfl
@[simp] theorem storeLenIn_cwb (v : Word) (s : State) : (storeLenIn v s).cwb = s.cwb := rfl
@[simp] theorem storeLenIn_pend (v : Word) (s : State) : (storeLenIn v s).pend = s.pend := rfl
@[simp] theorem storeLenIn_sched (v : Word) (s : State) : (storeLenIn v s).sched = s.sched := rfl
@[simp] theorem storeLenIn_resp (v : Word) (s : State) : (storeLenIn v s).resp = s.resp := rfl
@[simp] theorem storeLenIn_draws (v : Word) (s : State) : (storeLenIn v s).draws = s.draws := rfl

/-! ### storePlen -/

@[simp] theorem storePlen_params (v : Word) (s : State) : (storePlen v s).params = s.params := rfl
@[simp] theorem storePlen_flags (v : Word) (s : State) : (storePlen v s).flags = s.flags := rfl
@[simp] theorem storePlen_lenIn (v : Word) (s : State) : (storePlen v s).lenIn = s.lenIn := rfl
@[simp] theorem storePlen_plen (v : Word) (s : State) : (storePlen v s).plen = v := rfl
@[simp] theorem storePlen_hdrOut (v : Word) (s : State) : (storePlen v s).hdrOut = s.hdrOut := rfl
@[simp] theorem storePlen_cwLen (v : Word) (s : State) : (storePlen v s).cwLen = s.cwLen := rfl
@[simp] theorem storePlen_cwDrop (v : Word) (s : State) : (storePlen v s).cwDrop = s.cwDrop := rfl
@[simp] theorem storePlen_pbuf (v : Word) (s : State) : (storePlen v s).pbuf = s.pbuf := rfl
@[simp] theorem storePlen_cwb (v : Word) (s : State) : (storePlen v s).cwb = s.cwb := rfl
@[simp] theorem storePlen_pend (v : Word) (s : State) : (storePlen v s).pend = s.pend := rfl
@[simp] theorem storePlen_sched (v : Word) (s : State) : (storePlen v s).sched = s.sched := rfl
@[simp] theorem storePlen_resp (v : Word) (s : State) : (storePlen v s).resp = s.resp := rfl
@[simp] theorem storePlen_draws (v : Word) (s : State) : (storePlen v s).draws = s.draws := rfl

/-! ### storePbuf -/

@[simp] theorem storePbuf_params (j : Nat) (v : Word) (s : State) : (storePbuf j v s).params = s.params := rfl
@[simp] theorem storePbuf_flags (j : Nat) (v : Word) (s : State) : (storePbuf j v s).flags = s.flags := rfl
@[simp] theorem storePbuf_lenIn (j : Nat) (v : Word) (s : State) : (storePbuf j v s).lenIn = s.lenIn := rfl
@[simp] theorem storePbuf_plen (j : Nat) (v : Word) (s : State) : (storePbuf j v s).plen = s.plen := rfl
@[simp] theorem storePbuf_hdrOut (j : Nat) (v : Word) (s : State) : (storePbuf j v s).hdrOut = s.hdrOut := rfl
@[simp] theorem storePbuf_cwLen (j : Nat) (v : Word) (s : State) : (storePbuf j v s).cwLen = s.cwLen := rfl
@[simp] theorem storePbuf_cwDrop (j : Nat) (v : Word) (s : State) : (storePbuf j v s).cwDrop = s.cwDrop := rfl
@[simp] theorem storePbuf_pbuf (j : Nat) (v : Word) (s : State) : (storePbuf j v s).pbuf = s.pbuf.writeWord j v := rfl
@[simp] theorem storePbuf_cwb (j : Nat) (v : Word) (s : State) : (storePbuf j v s).cwb = s.cwb := rfl
@[simp] theorem storePbuf_pend (j : Nat) (v : Word) (s : State) : (storePbuf j v s).pend = s.pend := rfl
@[simp] theorem storePbuf_sched (j : Nat) (v : Word) (s : State) : (storePbuf j v s).sched = s.sched := rfl
@[simp] theorem storePbuf_resp (j : Nat) (v : Word) (s : State) : (storePbuf j v s).resp = s.resp := rfl
@[simp] theorem storePbuf_draws (j : Nat) (v : Word) (s : State) : (storePbuf j v s).draws = s.draws := rfl

/-! ### writeHeader -/

@[simp] theorem writeHeader_params (len : Nat) (s : State) : (writeHeader len s).params = s.params := by simp only [writeHeader]
@[simp] theorem writeHeader_flags (len : Nat) (s : State) : (writeHeader len s).flags = s.flags := by simp only [writeHeader]
@[simp] theorem writeHeader_lenIn (len : Nat) (s : State) : (writeHeader len s).lenIn = s.lenIn := by simp only [writeHeader]
@[simp] theorem writeHeader_plen (len : Nat) (s : State) : (writeHeader len s).plen = s.plen := by simp only [writeHeader]
@[simp] theorem writeHeader_hdrOut (len : Nat) (s : State) : (writeHeader len s).hdrOut = headerImage len := by simp only [writeHeader]
@[simp] theorem writeHeader_cwLen (len : Nat) (s : State) : (writeHeader len s).cwLen = s.cwLen := by simp only [writeHeader]
@[simp] theorem writeHeader_cwDrop (len : Nat) (s : State) : (writeHeader len s).cwDrop = s.cwDrop := by simp only [writeHeader]
@[simp] theorem writeHeader_pbuf (len : Nat) (s : State) : (writeHeader len s).pbuf = s.pbuf := by simp only [writeHeader]
@[simp] theorem writeHeader_cwb (len : Nat) (s : State) : (writeHeader len s).cwb = s.cwb := by simp only [writeHeader]
@[simp] theorem writeHeader_pend (len : Nat) (s : State) : (writeHeader len s).pend = s.pend := by simp only [writeHeader]
@[simp] theorem writeHeader_sched (len : Nat) (s : State) : (writeHeader len s).sched = s.sched := by simp only [writeHeader]
@[simp] theorem writeHeader_resp (len : Nat) (s : State) : (writeHeader len s).resp = s.resp := by simp only [writeHeader]
@[simp] theorem writeHeader_draws (len : Nat) (s : State) : (writeHeader len s).draws = s.draws := by simp only [writeHeader]

/-! ### writePayload -/

@[simp] theorem writePayload_params (n : Nat) (s : State) : (writePayload n s).params = s.params := by simp only [writePayload]
@[simp] theorem writePayload_flags (n : Nat) (s : State) : (writePayload n s).flags = if 0 < dropCount n (size s.params.sizing n) then setFlag .trunc s.flags else s.flags := by simp only [writePayload]
@[simp] theorem writePayload_lenIn (n : Nat) (s : State) : (writePayload n s).lenIn = s.lenIn := by simp only [writePayload]
@[simp] theorem writePayload_plen (n : Nat) (s : State) : (writePayload n s).plen = s.plen := by simp only [writePayload]
@[simp] theorem writePayload_hdrOut (n : Nat) (s : State) : (writePayload n s).hdrOut = s.hdrOut := by simp only [writePayload]
@[simp] theorem writePayload_cwLen (n : Nat) (s : State) : (writePayload n s).cwLen = BitVec.ofNat 32 (size s.params.sizing n) := by simp only [writePayload]
@[simp] theorem writePayload_cwDrop (n : Nat) (s : State) : (writePayload n s).cwDrop = BitVec.ofNat 32 (dropCount n (size s.params.sizing n)) := by simp only [writePayload]
@[simp] theorem writePayload_pbuf (n : Nat) (s : State) : (writePayload n s).pbuf = s.pbuf := by simp only [writePayload]
@[simp] theorem writePayload_cwb (n : Nat) (s : State) : (writePayload n s).cwb = payloadEncoder s.params.sizing (message s n) ++
      s.cwb.drop (payloadEncoder s.params.sizing (message s n)).length := by simp only [writePayload]
@[simp] theorem writePayload_pend (n : Nat) (s : State) : (writePayload n s).pend = s.pend := by simp only [writePayload]
@[simp] theorem writePayload_sched (n : Nat) (s : State) : (writePayload n s).sched = s.sched := by simp only [writePayload]
@[simp] theorem writePayload_resp (n : Nat) (s : State) : (writePayload n s).resp = s.resp := by simp only [writePayload]
@[simp] theorem writePayload_draws (n : Nat) (s : State) : (writePayload n s).draws = s.draws + n := by simp only [writePayload]

/-! ### the completions, in terms of the writes they are made of -/

@[simp] theorem completeEncHdr_params (len : Nat) (s : State) : (completeEncHdr len s).params = s.params := by
  simp only [completeEncHdr, finish_params, writeHeader_params]
@[simp] theorem completeEncHdr_flags (len : Nat) (s : State) : (completeEncHdr len s).flags = { s.flags with done := true } := by
  simp only [completeEncHdr, finish_flags, writeHeader_flags]
@[simp] theorem completeEncHdr_lenIn (len : Nat) (s : State) : (completeEncHdr len s).lenIn = s.lenIn := by
  simp only [completeEncHdr, finish_lenIn, writeHeader_lenIn]
@[simp] theorem completeEncHdr_plen (len : Nat) (s : State) : (completeEncHdr len s).plen = s.plen := by
  simp only [completeEncHdr, finish_plen, writeHeader_plen]
@[simp] theorem completeEncHdr_hdrOut (len : Nat) (s : State) : (completeEncHdr len s).hdrOut = headerImage len := by
  simp only [completeEncHdr, finish_hdrOut, writeHeader_hdrOut]
@[simp] theorem completeEncHdr_cwLen (len : Nat) (s : State) : (completeEncHdr len s).cwLen = s.cwLen := by
  simp only [completeEncHdr, finish_cwLen, writeHeader_cwLen]
@[simp] theorem completeEncHdr_cwDrop (len : Nat) (s : State) : (completeEncHdr len s).cwDrop = s.cwDrop := by
  simp only [completeEncHdr, finish_cwDrop, writeHeader_cwDrop]
@[simp] theorem completeEncHdr_pbuf (len : Nat) (s : State) : (completeEncHdr len s).pbuf = s.pbuf := by
  simp only [completeEncHdr, finish_pbuf, writeHeader_pbuf]
@[simp] theorem completeEncHdr_cwb (len : Nat) (s : State) : (completeEncHdr len s).cwb = s.cwb := by
  simp only [completeEncHdr, finish_cwb, writeHeader_cwb]
@[simp] theorem completeEncHdr_pend (len : Nat) (s : State) : (completeEncHdr len s).pend = none := by
  simp only [completeEncHdr, finish_pend]
@[simp] theorem completeEncHdr_sched (len : Nat) (s : State) : (completeEncHdr len s).sched = s.sched := by
  simp only [completeEncHdr, finish_sched, writeHeader_sched]
@[simp] theorem completeEncHdr_resp (len : Nat) (s : State) : (completeEncHdr len s).resp = s.resp := by
  simp only [completeEncHdr, finish_resp, writeHeader_resp]
@[simp] theorem completeEncHdr_draws (len : Nat) (s : State) : (completeEncHdr len s).draws = s.draws := by
  simp only [completeEncHdr, finish_draws, writeHeader_draws]

@[simp] theorem completeEncPay_params (n : Nat) (s : State) : (completeEncPay n s).params = s.params := by
  simp only [completeEncPay, finish_params, writePayload_params]
@[simp] theorem completeEncPay_flags (n : Nat) (s : State) : (completeEncPay n s).flags = { (writePayload n s).flags with done := true } := by
  simp only [completeEncPay, finish_flags]
@[simp] theorem completeEncPay_lenIn (n : Nat) (s : State) : (completeEncPay n s).lenIn = s.lenIn := by
  simp only [completeEncPay, finish_lenIn, writePayload_lenIn]
@[simp] theorem completeEncPay_plen (n : Nat) (s : State) : (completeEncPay n s).plen = s.plen := by
  simp only [completeEncPay, finish_plen, writePayload_plen]
@[simp] theorem completeEncPay_hdrOut (n : Nat) (s : State) : (completeEncPay n s).hdrOut = s.hdrOut := by
  simp only [completeEncPay, finish_hdrOut, writePayload_hdrOut]
@[simp] theorem completeEncPay_cwLen (n : Nat) (s : State) : (completeEncPay n s).cwLen = (writePayload n s).cwLen := by
  simp only [completeEncPay, finish_cwLen]
@[simp] theorem completeEncPay_cwDrop (n : Nat) (s : State) : (completeEncPay n s).cwDrop = (writePayload n s).cwDrop := by
  simp only [completeEncPay, finish_cwDrop]
@[simp] theorem completeEncPay_pbuf (n : Nat) (s : State) : (completeEncPay n s).pbuf = s.pbuf := by
  simp only [completeEncPay, finish_pbuf, writePayload_pbuf]
@[simp] theorem completeEncPay_cwb (n : Nat) (s : State) : (completeEncPay n s).cwb = (writePayload n s).cwb := by
  simp only [completeEncPay, finish_cwb]
@[simp] theorem completeEncPay_pend (n : Nat) (s : State) : (completeEncPay n s).pend = none := by
  simp only [completeEncPay, finish_pend]
@[simp] theorem completeEncPay_sched (n : Nat) (s : State) : (completeEncPay n s).sched = s.sched := by
  simp only [completeEncPay, finish_sched, writePayload_sched]
@[simp] theorem completeEncPay_resp (n : Nat) (s : State) : (completeEncPay n s).resp = s.resp := by
  simp only [completeEncPay, finish_resp, writePayload_resp]
@[simp] theorem completeEncPay_draws (n : Nat) (s : State) : (completeEncPay n s).draws = (writePayload n s).draws := by
  simp only [completeEncPay, finish_draws]

@[simp] theorem completeEncMsg_params (n : Nat) (s : State) : (completeEncMsg n s).params = s.params := by
  simp only [completeEncMsg, finish_params, writeHeader_params, writePayload_params]
@[simp] theorem completeEncMsg_flags (n : Nat) (s : State) : (completeEncMsg n s).flags = { (writePayload n s).flags with done := true } := by
  simp only [completeEncMsg, finish_flags, writeHeader_flags]
@[simp] theorem completeEncMsg_lenIn (n : Nat) (s : State) : (completeEncMsg n s).lenIn = s.lenIn := by
  simp only [completeEncMsg, finish_lenIn, writeHeader_lenIn, writePayload_lenIn]
@[simp] theorem completeEncMsg_plen (n : Nat) (s : State) : (completeEncMsg n s).plen = s.plen := by
  simp only [completeEncMsg, finish_plen, writeHeader_plen, writePayload_plen]
@[simp] theorem completeEncMsg_hdrOut (n : Nat) (s : State) : (completeEncMsg n s).hdrOut = headerImage n := by
  simp only [completeEncMsg, finish_hdrOut, writeHeader_hdrOut]
@[simp] theorem completeEncMsg_cwLen (n : Nat) (s : State) : (completeEncMsg n s).cwLen = (writePayload n s).cwLen := by
  simp only [completeEncMsg, finish_cwLen, writeHeader_cwLen]
@[simp] theorem completeEncMsg_cwDrop (n : Nat) (s : State) : (completeEncMsg n s).cwDrop = (writePayload n s).cwDrop := by
  simp only [completeEncMsg, finish_cwDrop, writeHeader_cwDrop]
@[simp] theorem completeEncMsg_pbuf (n : Nat) (s : State) : (completeEncMsg n s).pbuf = s.pbuf := by
  simp only [completeEncMsg, finish_pbuf, writeHeader_pbuf, writePayload_pbuf]
@[simp] theorem completeEncMsg_cwb (n : Nat) (s : State) : (completeEncMsg n s).cwb = (writePayload n s).cwb := by
  simp only [completeEncMsg, finish_cwb, writeHeader_cwb]
@[simp] theorem completeEncMsg_pend (n : Nat) (s : State) : (completeEncMsg n s).pend = none := by
  simp only [completeEncMsg, finish_pend]
@[simp] theorem completeEncMsg_sched (n : Nat) (s : State) : (completeEncMsg n s).sched = s.sched := by
  simp only [completeEncMsg, finish_sched, writeHeader_sched, writePayload_sched]
@[simp] theorem completeEncMsg_resp (n : Nat) (s : State) : (completeEncMsg n s).resp = s.resp := by
  simp only [completeEncMsg, finish_resp, writeHeader_resp, writePayload_resp]
@[simp] theorem completeEncMsg_draws (n : Nat) (s : State) : (completeEncMsg n s).draws = (writePayload n s).draws := by
  simp only [completeEncMsg, finish_draws, writeHeader_draws]

@[simp] theorem complete_encHdr (o : Word) (s : State) :
    complete { cmd := .encHdr, operand := o } s = completeEncHdr o.toNat s := rfl
@[simp] theorem complete_encPay (o : Word) (s : State) :
    complete { cmd := .encPay, operand := o } s = completeEncPay o.toNat s := rfl
@[simp] theorem complete_encMsg (o : Word) (s : State) :
    complete { cmd := .encMsg, operand := o } s = completeEncMsg o.toNat s := rfl

/-! ### the view BUSY, and the flags -/

@[simp] theorem busy_raiseFlag (f : EventFlag) (s : State) : busy (raiseFlag f s) = busy s := rfl
@[simp] theorem busy_respond (r : Response) (s : State) : busy (respond r s) = busy s := rfl
@[simp] theorem busy_accept (i : Instr) (s : State) : busy (accept i s) = true := rfl
@[simp] theorem busy_finish (s : State) : busy (finish s) = false := rfl
@[simp] theorem busy_applyReset (s : State) : busy (applyReset s) = false := rfl

theorem busy_eq_true_iff (s : State) : busy s = true ↔ ∃ p, s.pend = some p := by
  simp [busy, Option.isSome_iff_exists]

theorem busy_eq_false_iff (s : State) : busy s = false ↔ s.pend = none := by
  simp [busy]

@[simp] theorem getFlag_setFlag_same (f : EventFlag) (x : Flags) : getFlag f (setFlag f x) = true := by
  cases f <;> rfl

theorem getFlag_setFlag_other {f g : EventFlag} (h : f ≠ g) (x : Flags) :
    getFlag f (setFlag g x) = getFlag f x := by
  cases f <;> cases g <;> first | rfl | exact absurd rfl h

@[simp] theorem setFlag_done (f : EventFlag) (x : Flags) : (setFlag f x).done = x.done := by
  cases f <;> rfl

@[simp] theorem getFlag_done_update (f : EventFlag) (x : Flags) (b : Bool) :
    getFlag f { x with done := b } = getFlag f x := by
  cases f <;> rfl

/-- W1C clears a flag exactly when its bit of the written word is 1 (R42). -/
theorem getFlag_clearFlags (f : EventFlag) (v : Word) (x : Flags) :
    getFlag f (clearFlags v x) = (getFlag f x && !v.getLsbD (causeCode f)) := by
  cases f <;> rfl

@[simp] theorem clearFlags_done (v : Word) (x : Flags) :
    (clearFlags v x).done = (x.done && !v.getLsbD 1) := rfl

end Sys2Proof.Machine
end

