-- ==== Sys2Proof/Laws/Ops.lean ====
section
/-! SUPPORT. What each shared operation can do, said once: presenting a command, completing one, the operand writes, and
the search for a codeword length. -/

namespace Sys2Proof.Machine

open Sys2Proof

/-! ### presenting a command -/

/-- Everything presenting a legal command can do (R170). -/
theorem presentCommand_cases (i : Instr) (oor : Bool) (f : EventFlag) (s : State) :
    (busy s = true ∧ presentCommand i oor f s = raiseFlag .eBusy s) ∨
    (busy s = false ∧ oor = true ∧ presentCommand i oor f s = raiseFlag f s) ∨
    (busy s = false ∧ oor = false ∧ presentCommand i oor f s = accept i s) := by
  unfold presentCommand
  cases busy s <;> cases oor <;> simp

/-- Presenting a command always answers a next state. -/
theorem exec_next (i : Instr) (s : State) : ∃ t, exec i s = .next t := by
  cases i <;> exact ⟨_, rfl⟩

/-- Everything a command's arm can do: E_BUSY while busy, its range flag with its operand out of range, or acceptance
with its operand in range. -/
theorem exec_cases {i : Instr} {s t : State} (h : exec i s = .next t) :
    (busy s = true ∧ t = raiseFlag .eBusy s) ∨
    (busy s = false ∧ i = .encHdr ∧ Config.maxLen < s.lenIn.toNat ∧ t = raiseFlag .eHdrOvf s) ∨
    (busy s = false ∧ i ≠ .encHdr ∧ s.params.maxBytes < s.plen.toNat ∧ t = raiseFlag .ePlen s) ∨
    (busy s = false ∧ (i = .encHdr → s.lenIn.toNat ≤ Config.maxLen) ∧
      (i ≠ .encHdr → s.plen.toNat ≤ s.params.maxBytes) ∧ t = accept i s) := by
  have key : ∀ oor f, presentCommand i oor f s = t →
      (busy s = true ∧ t = raiseFlag .eBusy s) ∨ (busy s = false ∧ oor = true ∧ t = raiseFlag f s) ∨
      (busy s = false ∧ oor = false ∧ t = accept i s) := by
    intro oor f ht
    rcases presentCommand_cases i oor f s with ⟨h1, h2⟩ | ⟨h1, h2, h3⟩ | ⟨h1, h2, h3⟩
    · exact .inl ⟨h1, ht ▸ h2⟩
    · exact .inr (.inl ⟨h1, h2, ht ▸ h3⟩)
    · exact .inr (.inr ⟨h1, h2, ht ▸ h3⟩)
  cases i with
  | encHdr =>
    rcases key _ _ (Host.Outcome.next.inj h) with h | ⟨hb, ho, ht⟩ | ⟨hb, ho, ht⟩
    · exact .inl h
    · exact .inr (.inl ⟨hb, rfl, of_decide_eq_true ho, ht⟩)
    · exact .inr (.inr (.inr ⟨hb, fun _ => Nat.le_of_not_lt (of_decide_eq_false ho),
        fun hne => absurd rfl hne, ht⟩))
  | encPay =>
    rcases key _ _ (Host.Outcome.next.inj h) with h | ⟨hb, ho, ht⟩ | ⟨hb, ho, ht⟩
    · exact .inl h
    · exact .inr (.inr (.inl ⟨hb, by decide, of_decide_eq_true ho, ht⟩))
    · exact .inr (.inr (.inr ⟨hb, fun hne => absurd hne (by decide),
        fun _ => Nat.le_of_not_lt (of_decide_eq_false ho), ht⟩))
  | encMsg =>
    rcases key _ _ (Host.Outcome.next.inj h) with h | ⟨hb, ho, ht⟩ | ⟨hb, ho, ht⟩
    · exact .inl h
    · exact .inr (.inr (.inl ⟨hb, by decide, of_decide_eq_true ho, ht⟩))
    · exact .inr (.inr (.inr ⟨hb, fun hne => absurd hne (by decide),
        fun _ => Nat.le_of_not_lt (of_decide_eq_false ho), ht⟩))

/-- Everything a write of a word to CMD can do (R170, R209). -/
theorem presentWord_cases {v : Word} {s t : State} (h : presentWord v s = .next t) :
    (busy s = true ∧ t = raiseFlag .eBusy s) ∨
    (busy s = false ∧ (∃ e, decode v = .error e) ∧ t = raiseFlag .eIll s) ∨
    (busy s = false ∧ ∃ i, decode v = .ok i ∧ exec i s = .next t) := by
  unfold presentWord at h
  by_cases hb : busy s = true
  · rw [if_pos hb] at h
    exact .inl ⟨hb, (Host.Outcome.next.inj h).symm⟩
  · rw [if_neg hb] at h
    have hb' : busy s = false := by simpa using hb
    cases hd : decode v with
    | error e =>
      rw [hd] at h
      exact .inr (.inl ⟨hb', ⟨e, rfl⟩, (Host.Outcome.next.inj h).symm⟩)
    | ok i =>
      rw [hd] at h
      exact .inr (.inr ⟨hb', i, rfl, h⟩)

/-- A write to CMD always answers a next state. -/
theorem presentWord_next (v : Word) (s : State) : ∃ t, presentWord v s = .next t := by
  unfold presentWord
  split
  · exact ⟨_, rfl⟩
  · split
    · exact ⟨_, rfl⟩
    · exact exec_next _ _

/-- A write of an operand is refused while busy and performed while idle (R242). -/
theorem operandWrite_cases (w s : State) :
    (busy s = true ∧ operandWrite w s = raiseFlag .eBusy s) ∨ (busy s = false ∧ operandWrite w s = w) := by
  unfold operandWrite
  cases busy s <;> simp

/-- A host write of a location always answers a next state. -/
theorem busWrite_next (l : Location) (v : Word) (s : State) : ∃ t, busWrite l v s = .next t := by
  cases l with
  | cmd => exact presentWord_next _ _
  | _ => exact ⟨_, rfl⟩

/-! ### completion -/

theorem engineTurn_empty {s : State} (h : s.pend = none) : engineTurn s = s := by
  unfold engineTurn; rw [h]

theorem engineTurn_full {s : State} {p : Pending} (h : s.pend = some p) : engineTurn s = complete p s := by
  unfold engineTurn; rw [h]

/-- Every completion ends the same way (R179). -/
theorem complete_ends (p : Pending) (s : State) :
    (complete p s).pend = none ∧ (complete p s).flags.done = true := by
  obtain ⟨c, o⟩ := p
  cases c <;> exact ⟨rfl, rfl⟩

/-- What no completion changes (R175 to R179). -/
theorem complete_frame (p : Pending) (s : State) :
    (complete p s).params = s.params ∧ (complete p s).lenIn = s.lenIn ∧ (complete p s).plen = s.plen ∧
    (complete p s).pbuf = s.pbuf ∧ (complete p s).sched = s.sched ∧ (complete p s).resp = s.resp := by
  obtain ⟨c, o⟩ := p
  cases c <;> simp [complete, completeEncHdr, completeEncPay, completeEncMsg]

/-! ### the search for a length -/

/-- The search gives its start times a power of two. -/
theorem firstPow2_mul (ok : Nat → Bool) (fuel q : Nat) : ∃ k, firstPow2 ok fuel q = q * 2 ^ k := by
  induction fuel generalizing q with
  | zero => exact ⟨0, by simp [firstPow2]⟩
  | succ fuel ih =>
    unfold firstPow2
    split
    · exact ⟨0, by simp⟩
    · obtain ⟨k, hk⟩ := ih (2 * q)
      exact ⟨k + 1, by rw [hk, Nat.pow_succ, Nat.mul_comm 2 q, Nat.mul_assoc, Nat.mul_comm 2]⟩

/-- If some doubling within the fuel is accepted, the search gives an accepted value no greater than it. -/
theorem firstPow2_least {ok : Nat → Bool} {fuel q k : Nat} (hk : k ≤ fuel) (h : ok (q * 2 ^ k) = true) :
    ok (firstPow2 ok fuel q) = true ∧ firstPow2 ok fuel q ≤ q * 2 ^ k := by
  induction fuel generalizing q k with
  | zero =>
    obtain rfl : k = 0 := by omega
    simpa [firstPow2] using h
  | succ fuel ih =>
    unfold firstPow2
    by_cases hq : ok q = true
    · rw [if_pos hq]
      exact ⟨hq, Nat.le_mul_of_pos_right _ (Nat.two_pow_pos k)⟩
    · rw [if_neg hq]
      cases k with
      | zero => exact absurd (by simpa using h) hq
      | succ k =>
        have he : q * 2 ^ (k + 1) = 2 * q * 2 ^ k := by
          rw [Nat.pow_succ, Nat.mul_comm 2 q, Nat.mul_assoc, Nat.mul_comm 2]
        rw [he] at h ⊢
        exact ih (by omega) h

/-! ### the address map -/

theorem windowOffset_add (p : Params) {off : Nat} (h : off < Config.windowBytes) :
    windowOffset p (p.base + off) = some off := by
  unfold windowOffset
  rw [if_pos ⟨Nat.le_add_right .., by omega⟩, Nat.add_sub_cancel_left]

theorem windowOffset_eq_some {p : Params} {addr off : Nat} (h : windowOffset p addr = some off) :
    addr = p.base + off ∧ off < Config.windowBytes := by
  unfold windowOffset at h
  split at h
  · have := Option.some.inj h; omega
  · cases h

theorem busTarget_eq_some {p : Params} {off bytes : Nat} {l : Location} (h : busTarget p off bytes = some l) :
    bytes = 4 ∧ off % 4 = 0 ∧ locate p off = some l := by
  unfold busTarget at h
  split at h
  · next hc => exact ⟨hc.1, hc.2, h⟩
  · cases h

/-- A legal build (R6). -/
theorem wf_iff (p : Params) :
    p.wf = true ↔ 1 ≤ p.maxBytes ∧ p.maxBytes ≤ 2047 ∧ p.base % 0x2000 = 0 := by
  rw [Params.wf, Bool.and_eq_true, Bool.and_eq_true, decide_eq_true_eq, decide_eq_true_eq, decide_eq_true_eq,
    and_assoc]
  rfl

theorem pbufWords_le {p : Params} (h : p.wf = true) : pbufWords p ≤ 512 := by
  obtain ⟨-, h2, -⟩ := (wf_iff p).1 h
  unfold pbufWords
  omega

theorem locate_pbuf (p : Params) {j : Nat} (hj : j < pbufWords p) (h : p.wf = true) :
    locate p (0x400 + 4 * j) = some (.pbuf j) := by
  have bound := pbufWords_le h
  unfold locate
  repeat' split
  all_goals first
    | omega
    | exact congrArg (fun k => some (Location.pbuf k)) (by omega : (0x400 + 4 * j - 0x400) / 4 = j)

theorem locate_cwbuf (p : Params) {w : Nat} (hw : w < cwbufWords p) (h : p.wf = true) :
    locate p (0x1000 + 4 * w) = some (.cwbuf w) := by
  have bound := pbufWords_le h
  unfold locate
  repeat' split
  all_goals first
    | omega
    | exact congrArg (fun k => some (Location.cwbuf k)) (by omega : (0x1000 + 4 * w - 0x1000) / 4 = w)

/-- The offset at which a location stands (R71). -/
def StandsAt (p : Params) (off : Nat) : Location → Prop
  | .config => off = 0x000
  | .cmd => off = 0x004
  | .status => off = 0x008
  | .lenIn => off = 0x00C
  | .plen => off = 0x010
  | .hdrOut => off = 0x014
  | .cwLen => off = 0x018
  | .cwDrop => off = 0x01C
  | .pbuf j => 0x400 ≤ off ∧ j = (off - 0x400) / 4 ∧ j < pbufWords p
  | .cwbuf w => 0x1000 ≤ off ∧ w = (off - 0x1000) / 4 ∧ w < cwbufWords p

theorem locate_cases {p : Params} {off : Nat} {l : Location} (h : locate p off = some l) : StandsAt p off l := by
  unfold locate at h
  repeat' split at h
  all_goals first
    | (obtain rfl := Option.some.inj h; unfold StandsAt; dsimp only; omega)
    | cases h

end Sys2Proof.Machine
end

