-- ==== Sys2Proof/Laws/PerInstr.lean ====
section
/-! SUPPORT. Statements about every command as syntax, one lemma per constructor. The family `WordFields`: the fields of
a command's word are its OP and a zero RSV (R100, R103), and they are a legal command word (R104). -/

namespace Sys2Proof.Laws.WordFields

open Sys2Proof

/-- The fields of the command's word (R100 to R104). -/
def Statement (i : Instr) : Prop :=
  wordFields (encode i) = { op := opOf i, rsv := 0 } ∧ (wordFields (encode i)).wf = true

theorem encHdr : Statement .encHdr := by unfold Statement; decide

theorem encPay : Statement .encPay := by unfold Statement; decide

theorem encMsg : Statement .encMsg := by unfold Statement; decide

end Sys2Proof.Laws.WordFields
end

