-- ==== Sys2Proof/Laws/Step.lean ====
section
/-! SUPPORT. Everything one step can do, said once: the cases an invariant of the machine has to look at. -/

namespace Sys2Proof.Machine

open Sys2Proof

@[simp] theorem State.left_params (s : State) (rest : List Event) : (s.left rest).params = s.params := rfl
@[simp] theorem State.left_flags (s : State) (rest : List Event) : (s.left rest).flags = s.flags := rfl
@[simp] theorem State.left_lenIn (s : State) (rest : List Event) : (s.left rest).lenIn = s.lenIn := rfl
@[simp] theorem State.left_plen (s : State) (rest : List Event) : (s.left rest).plen = s.plen := rfl
@[simp] theorem State.left_hdrOut (s : State) (rest : List Event) : (s.left rest).hdrOut = s.hdrOut := rfl
@[simp] theorem State.left_cwLen (s : State) (rest : List Event) : (s.left rest).cwLen = s.cwLen := rfl
@[simp] theorem State.left_cwDrop (s : State) (rest : List Event) : (s.left rest).cwDrop = s.cwDrop := rfl
@[simp] theorem State.left_pbuf (s : State) (rest : List Event) : (s.left rest).pbuf = s.pbuf := rfl
@[simp] theorem State.left_cwb (s : State) (rest : List Event) : (s.left rest).cwb = s.cwb := rfl
@[simp] theorem State.left_pend (s : State) (rest : List Event) : (s.left rest).pend = s.pend := rfl
@[simp] theorem State.left_sched (s : State) (rest : List Event) : (s.left rest).sched = rest := rfl
@[simp] theorem State.left_resp (s : State) (rest : List Event) : (s.left rest).resp = s.resp := rfl
@[simp] theorem State.left_draws (s : State) (rest : List Event) : (s.left rest).draws = s.draws := rfl
@[simp] theorem State.facing_params (s : State) (e : Event) (rest : List Event) : (s.facing e rest).params = s.params := rfl
@[simp] theorem State.facing_flags (s : State) (e : Event) (rest : List Event) : (s.facing e rest).flags = s.flags := rfl
@[simp] theorem State.facing_lenIn (s : State) (e : Event) (rest : List Event) : (s.facing e rest).lenIn = s.lenIn := rfl
@[simp] theorem State.facing_plen (s : State) (e : Event) (rest : List Event) : (s.facing e rest).plen = s.plen := rfl
@[simp] theorem State.facing_hdrOut (s : State) (e : Event) (rest : List Event) : (s.facing e rest).hdrOut = s.hdrOut := rfl
@[simp] theorem State.facing_cwLen (s : State) (e : Event) (rest : List Event) : (s.facing e rest).cwLen = s.cwLen := rfl
@[simp] theorem State.facing_cwDrop (s : State) (e : Event) (rest : List Event) : (s.facing e rest).cwDrop = s.cwDrop := rfl
@[simp] theorem State.facing_pbuf (s : State) (e : Event) (rest : List Event) : (s.facing e rest).pbuf = s.pbuf := rfl
@[simp] theorem State.facing_cwb (s : State) (e : Event) (rest : List Event) : (s.facing e rest).cwb = s.cwb := rfl
@[simp] theorem State.facing_pend (s : State) (e : Event) (rest : List Event) : (s.facing e rest).pend = s.pend := rfl
@[simp] theorem State.facing_sched (s : State) (e : Event) (rest : List Event) : (s.facing e rest).sched = e :: rest := rfl
@[simp] theorem State.facing_resp (s : State) (e : Event) (rest : List Event) : (s.facing e rest).resp = s.resp := rfl
@[simp] theorem State.facing_draws (s : State) (e : Event) (rest : List Event) : (s.facing e rest).draws = s.draws := rfl

/-- What one turn can do to a state whose schedule it has been taken from. `none` is the turn the engine takes when
nothing is scheduled. -/
inductive TurnEffect (s : State) : Option Event → State → Prop where
  /-- The engine's turn with nothing pending (R174, R220). -/
  | idle {e : Option Event} (he : e = none ∨ e = some .engine) (hp : s.pend = none) : TurnEffect s e s
  /-- The engine's turn with a command pending (R174). -/
  | complete {e : Option Event} (he : e = none ∨ e = some .engine) {q : Pending} (hp : s.pend = some q) :
      TurnEffect s e (Machine.complete q s)
  /-- Reset (R230). -/
  | reset : TurnEffect s (some .reset) (applyReset s)
  /-- An access that fails a bus check (R74). -/
  | busError (a : Access) : TurnEffect s (some (.bus a)) (respond .busError s)
  /-- A read (R76). -/
  | read {off : Nat} {l : Location} (hl : locate s.params off = some l) :
      TurnEffect s (some (rd s.params off)) (busRead l s)
  /-- A write to a read-only location (R75). -/
  | ignored {off : Nat} (v : Word) 
      (hoff : off = 0x000 ∨ off = 0x014 ∨ off = 0x018 ∨ off = 0x01C ∨ 0x1000 ≤ off) :
      TurnEffect s (some (wr s.params off v)) (respond .ok s)
  /-- A write of an operand or of CMD while busy (R242). -/
  | busyWrite {off : Nat} (v : Word) 
      (hoff : off = 0x004 ∨ off = 0x00C ∨ off = 0x010 ∨ 0x400 ≤ off ∧ off < 0x400 + 4 * pbufWords s.params)
      (hb : busy s = true) :
      TurnEffect s (some (wr s.params off v)) (raiseFlag .eBusy (respond .ok s))
  /-- An illegal command word while idle (R203). -/
  | illegal {v : Word} {x : Illegal} (hd : decode v = .error x) (hp : s.pend = none) :
      TurnEffect s (some (wr s.params 0x004 v)) (raiseFlag .eIll (respond .ok s))
  /-- ENC_HDR out of range while idle (R205). -/
  | hdrOverflow {v : Word} (hd : decode v = .ok .encHdr) (hp : s.pend = none)
      (hr : Config.maxLen < s.lenIn.toNat) :
      TurnEffect s (some (wr s.params 0x004 v)) (raiseFlag .eHdrOvf (respond .ok s))
  /-- ENC_PAY or ENC_MSG out of range while idle (R206). -/
  | payloadLength {v : Word} {i : Instr} (hd : decode v = .ok i) (hi : i ≠ .encHdr) (hp : s.pend = none)
      (hr : s.params.maxBytes < s.plen.toNat) :
      TurnEffect s (some (wr s.params 0x004 v)) (raiseFlag .ePlen (respond .ok s))
  /-- An accepted command (R170). -/
  | accepted {v : Word} {i : Instr} (hd : decode v = .ok i) (hp : s.pend = none)
      (hl : i = .encHdr → s.lenIn.toNat ≤ Config.maxLen) (hn : i ≠ .encHdr → s.plen.toNat ≤ s.params.maxBytes) :
      TurnEffect s (some (wr s.params 0x004 v)) (accept i (respond .ok s))
  /-- A write of STATUS (R42). -/
  | status (v : Word) : TurnEffect s (some (wr s.params 0x008 v)) (writeStatus v (respond .ok s))
  /-- A write of LEN_IN while idle (R77). -/
  | lenIn (v : Word) (hp : s.pend = none) :
      TurnEffect s (some (wr s.params 0x00C v)) (storeLenIn v (respond .ok s))
  /-- A write of PLEN while idle (R77). -/
  | plen (v : Word) (hp : s.pend = none) :
      TurnEffect s (some (wr s.params 0x010 v)) (storePlen v (respond .ok s))
  /-- A write of PBUF word `j` while idle (R77). -/
  | pbuf {j : Nat} (v : Word) (hj : j < pbufWords s.params) (hp : s.pend = none) :
      TurnEffect s (some (wr s.params (0x400 + 4 * j) v)) (storePbuf j v (respond .ok s))

/-- Everything a write to a location can do. -/
theorem writeEffect_turn {s t : State} {off : Nat} {l : Location} {v : Word} (ha : off % 4 = 0)
    (hl : locate s.params off = some l) (h : busWrite l v s = .next t) :
    TurnEffect s (some (wr s.params off v)) t := by
  have hc := locate_cases hl
  unfold busWrite writeEffect at h
  have idle_of : busy (respond .ok s) = false → s.pend = none := fun hb => (busy_eq_false_iff s).1 hb
  have operand : ∀ w, (off = 0x00C ∨ off = 0x010 ∨ 0x400 ≤ off ∧ off < 0x400 + 4 * pbufWords s.params) →
      operandWrite w (respond .ok s) = t →
      (s.pend = none → TurnEffect s (some (wr s.params off v)) w) → TurnEffect s (some (wr s.params off v)) t := by
    intro w hoff ht hw
    subst ht
    rcases operandWrite_cases w (respond .ok s) with ⟨hb, h1⟩ | ⟨hb, h1⟩
    · rw [h1]; exact .busyWrite v (.inr hoff) hb
    · rw [h1]; exact hw (idle_of hb)
  cases l with
  | config => obtain rfl := Host.Outcome.next.inj h; exact .ignored v (by unfold StandsAt at hc; dsimp only at hc; omega)
  | hdrOut => obtain rfl := Host.Outcome.next.inj h; exact .ignored v (by unfold StandsAt at hc; dsimp only at hc; omega)
  | cwLen => obtain rfl := Host.Outcome.next.inj h; exact .ignored v (by unfold StandsAt at hc; dsimp only at hc; omega)
  | cwDrop => obtain rfl := Host.Outcome.next.inj h; exact .ignored v (by unfold StandsAt at hc; dsimp only at hc; omega)
  | cwbuf w => obtain rfl := Host.Outcome.next.inj h; exact .ignored v (by unfold StandsAt at hc; dsimp only at hc; omega)
  | status => obtain rfl := Host.Outcome.next.inj h; obtain rfl : off = _ := hc; exact .status v
  | lenIn => obtain rfl : off = _ := hc; exact operand _ (by omega) (Host.Outcome.next.inj h) fun hp => .lenIn v hp
  | plen => obtain rfl : off = _ := hc; exact operand _ (by omega) (Host.Outcome.next.inj h) fun hp => .plen v hp
  | pbuf j =>
    obtain ⟨h1, h2, h3⟩ := hc
    obtain rfl : off = 0x400 + 4 * j := by omega
    exact operand _ (by omega) (Host.Outcome.next.inj h) fun hp => .pbuf v h3 hp
  | cmd =>
    obtain rfl : off = _ := hc
    rcases presentWord_cases h with ⟨hb, rfl⟩ | ⟨hb, ⟨x, hd⟩, rfl⟩ | ⟨hb, i, hd, hx⟩
    · exact .busyWrite v (.inl rfl) hb
    · exact .illegal hd (idle_of hb)
    · rcases exec_cases hx with ⟨hb', -⟩ | ⟨-, rfl, hr, rfl⟩ | ⟨-, hi, hr, rfl⟩ | ⟨-, h1, h2, rfl⟩
      · rw [hb] at hb'; cases hb'
      · exact .hdrOverflow hd (idle_of hb) hr
      · exact .payloadLength hd hi (idle_of hb) hr
      · exact .accepted hd (idle_of hb) h1 h2

theorem engineTurn_turn {s : State} {e : Option Event} (he : e = none ∨ e = some .engine) :
    TurnEffect s e (engineTurn s) := by
  cases hp : s.pend with
  | none => rw [engineTurn_empty hp]; exact .idle he hp
  | some q => rw [engineTurn_full hp]; exact .complete he hp

/-- Everything a scheduled turn can do. -/
theorem takeTurn_turn {e : Event} {s t : State} (h : takeTurn e s = .next t) : TurnEffect s (some e) t := by
  cases e with
  | engine => obtain rfl := Host.Outcome.next.inj h; exact engineTurn_turn (.inr rfl)
  | reset => obtain rfl := Host.Outcome.next.inj h; exact .reset
  | bus a =>
    cases a with
    | read addr bytes =>
      simp only [takeTurn, hostAccess] at h
      split at h
      · cases h
      · next off hw =>
        split at h
        · obtain rfl := Host.Outcome.next.inj h; exact .busError _
        · next l ht =>
          obtain rfl := Host.Outcome.next.inj h
          obtain ⟨rfl, -⟩ := windowOffset_eq_some hw
          obtain ⟨rfl, -, hl⟩ := busTarget_eq_some ht
          exact .read hl
    | write addr bytes v =>
      simp only [takeTurn, hostAccess] at h
      split at h
      · cases h
      · next off hw =>
        split at h
        · obtain rfl := Host.Outcome.next.inj h; exact .busError _
        · next l ht =>
          obtain ⟨rfl, -⟩ := windowOffset_eq_some hw
          obtain ⟨rfl, ha, hl⟩ := busTarget_eq_some ht
          exact writeEffect_turn ha hl h

/-- Everything one step can do: take the first scheduled turn, or the engine's when nothing is scheduled. -/
theorem step_turn {s t : State} (h : step s = .next t) :
    (s.sched = [] ∧ TurnEffect s none t) ∨
    (∃ e rest, s.sched = e :: rest ∧ TurnEffect (s.left rest) (some e) t) := by
  unfold step runTurn at h
  cases hs : s.sched with
  | nil =>
    rw [hs] at h
    obtain rfl := Host.Outcome.next.inj h
    exact .inl ⟨rfl, engineTurn_turn (.inl rfl)⟩
  | cons e rest =>
    rw [hs] at h
    exact .inr ⟨e, rest, rfl, takeTurn_turn h⟩

/-- A step with the turn `e` next is that turn. -/
theorem step_facing (s : State) (e : Event) (rest : List Event) :
    step (s.facing e rest) = takeTurn e (s.left rest) := rfl

theorem step_of_sched {s : State} {e : Event} {rest : List Event} (h : s.sched = e :: rest) :
    step s = takeTurn e (s.left rest) := by
  unfold step runTurn; rw [h]; rfl

theorem step_of_nothing_scheduled {s : State} (h : s.sched = []) : step s = .next (engineTurn s) := by
  unfold step runTurn; rw [h]

/-- A scheduled 32-bit write at a mapped offset that is a multiple of 4 is the write of what stands there. -/
theorem takeTurn_wr {s : State} {off : Nat} {l : Location} (v : Word) (h4 : off % 4 = 0) (hw : off < 0x2000)
    (hl : locate s.params off = some l) : takeTurn (wr s.params off v) s = busWrite l v s := by
  simp only [wr, takeTurn, hostAccess, windowOffset_add s.params (show off < Config.windowBytes from hw), busTarget,
    h4, hl, and_self, if_true]

/-- A scheduled 32-bit read at a mapped offset that is a multiple of 4 is the read of what stands there. -/
theorem takeTurn_rd {s : State} {off : Nat} {l : Location} (h4 : off % 4 = 0) (hw : off < 0x2000)
    (hl : locate s.params off = some l) : takeTurn (rd s.params off) s = .next (busRead l s) := by
  simp only [rd, takeTurn, hostAccess, windowOffset_add s.params (show off < Config.windowBytes from hw), busTarget,
    h4, hl, and_self, if_true]

end Sys2Proof.Machine
end

