-- ==== Sys2Proof/Tests/Slice0.lean ====
section
/-! SUPPORT. The model's own tests, each with its source in spec/, the WellFormed smoke, and a witness for every statement
that has hypotheses. Expected values are those of spec/95_test_vectors.md (rows named in the comments) or the spec's
worked examples. -/

namespace Sys2Proof.Tests

open Sys2Proof Sys2Proof.Machine

/-! ### small states -/

/-- The build of the spec's programs (95 section 3): MAX_BYTES 16, REF; the base is not 0 so that it is seen to count. -/
def p16 : Params := { maxBytes := 16, sizing := .ref, base := 0x2000 }

/-- The same with FIT. -/
def f16 : Params := { maxBytes := 16, sizing := .fit, base := 0x2000 }

/-- Idle after reset. -/
def idle : State := State.resetOf p16

/-- "hi" written to PBUF word 0 (95 section 3, program 2), for the sizing of the build. -/
def hi (p : Params) : State := { State.resetOf p with pbuf := (Memory.writeWord [] 0 0x00006968), plen := 2 }

/-- With a command pending. -/
def pending (i : Instr) (n : Word) (s : State) : State := { s with pend := some { cmd := i, operand := n } }

/-- The state one step later, if the step answers one. -/
def after (s : State) : Option State :=
  match step s with
  | .next t => some t
  | _ => none

/-- One turn. -/
def turn (s : State) (e : Event) : Option State := after (s.facing e [])

/-- STATUS one turn later. -/
def statusAfter (s : State) (e : Event) : Option Word := (turn s e).map statusWord

/-- The response to one access. -/
def answer (s : State) (e : Event) : Option Response := (turn s e).bind (·.resp)

/-! ### WellFormed: each check refuses an ill-formed term -/

theorem test_wf_refuses_maxBytes_zero : Params.wf { p16 with maxBytes := 0 } = false := by decide
theorem test_wf_refuses_maxBytes_2048 : Params.wf { p16 with maxBytes := 2048 } = false := by decide
theorem test_wf_refuses_base_off_window : Params.wf { p16 with base := 0x1000 } = false := by decide
theorem test_wf_admits_2047 : Params.wf { p16 with maxBytes := 2047 } = true := by decide
theorem test_wf_refuses_reserved_bit : Cmd32.wf { op := 1, rsv := 1 } = false := by decide
theorem test_wf_refuses_op_zero : Cmd32.wf { op := 0, rsv := 0 } = false := by decide
theorem test_wf_refuses_op_four : Cmd32.wf { op := 4, rsv := 0 } = false := by decide
theorem test_wf_admits_every_command : ∀ i ∈ [Instr.encHdr, .encPay, .encMsg], i.wf = true := by decide

/-! ### decoding: words written out from R100 and R101, and section 2.7's illegal words -/

theorem test_decode_enc_hdr : decode 0b00000000000000000000000000000001#32 = .ok .encHdr := by decide
theorem test_decode_enc_pay : decode 0b00000000000000000000000000000010#32 = .ok .encPay := by decide
theorem test_decode_enc_msg : decode 0b00000000000000000000000000000011#32 = .ok .encMsg := by decide
theorem test_decode_zero_is_illegal : decode 0x00000000#32 = .error .unassignedOp := by decide
theorem test_decode_reserved_top_bit : decode 0x80000001#32 = .error .reservedBits := by decide
theorem test_table_words : [1, 2, 3, 4, 0x11].map (decodeTableWord 32) =
    [some .encHdr, some .encPay, some .encMsg, none, none] := by decide

/-! ### the encoding functions -/

/-- Section 2.1. -/
theorem test_bits8_h : bits8 0x68 = [false, true, true, false, true, false, false, false] := by decide
/-- Section 2.1. -/
theorem test_bits11_5 : bits11 5 =
    [false, false, false, false, false, false, false, false, true, false, true] := by decide
/-- Section 2.2. -/
theorem test_positions_8 : ppos 8 = [1, 2, 4] ∧ dataPos 8 = [3, 5, 6, 7] ∧ cover 4 8 = [5, 6, 7] := by decide
/-- Section 2.3, B1 to B3, B5 and B9. -/
theorem test_hblock_small : hBlock 1 [true] = [false] ∧ hBlock 2 [true] = [false, false] ∧
    hBlock 4 [true] = [true, true, true, true] ∧
    hBlock 8 [false, false, false, true] = [false, true, true, false, true, false, false, true] := by decide +kernel
/-- Section 2.4, H1 to H11. -/
theorem test_headers : [0, 1, 2, 3, 5, 682, 1000, 1024, 1365, 2046, 2047].map headerImage =
    [0x0000, 0x8117, 0x4114, 0xC003, 0xA005, 0x55A5, 0x17E7, 0x000F, 0xAA5A, 0x7EE8, 0xFFFF] := by decide +kernel
/-- Section 2.5. -/
theorem test_sizes : [0, 1, 2, 3, 4, 7, 8, 15].map sizeRef = [1, 8, 16, 32, 32, 64, 64, 128] ∧
    [0, 1, 2, 3, 4, 7, 8, 15].map sizeFit = [1, 16, 32, 32, 64, 64, 128, 128] := by decide +kernel
/-- Section 2.6, P5, P6 and P8 (REF). -/
theorem test_payload_ref : [[0x01#8], [0x68], [0x61, 0x62, 0x63]].map (fun m => packNat (payloadEncoder .ref m)) =
    [0x00, 0x66, 0x3191D070] := by decide +kernel
/-- Section 2.6, P5f, P7f and P9f (FIT). -/
theorem test_payload_fit : [[0x01#8], [0x68, 0x69], [0x41, 0x42, 0x43, 0x44]].map
    (fun m => packNat (payloadEncoder .fit m)) = [0x1111, 0x24C371, 0x11B0915134] := by decide +kernel

/-! ### acceptance (section 2.7) -/

/-- A1 and A3. -/
theorem test_enc_hdr_acceptance : statusAfter { idle with lenIn := 5 } (wr p16 4 1) = some 0x01 ∧
    statusAfter { idle with lenIn := 2048 } (wr p16 4 1) = some 0x10 := by decide
/-- A5 and A6. -/
theorem test_enc_pay_acceptance : statusAfter { idle with plen := 16 } (wr p16 4 2) = some 0x01 ∧
    statusAfter { idle with plen := 17 } (wr p16 4 2) = some 0x20 := by decide
/-- A7: LEN_IN is not read. -/
theorem test_enc_msg_acceptance :
    statusAfter { idle with lenIn := 4000, plen := 17 } (wr p16 4 3) = some 0x20 ∧
    (turn { idle with plen := 0 } (wr p16 4 3)).map (·.pend) = some (some { cmd := .encMsg, operand := 0 }) := by
  decide
/-- A12 and A13: illegal before range, busy before illegal. -/
theorem test_acceptance_priority : statusAfter { idle with lenIn := 2048 } (wr p16 4 0x11) = some 0x04 ∧
    statusAfter (pending .encHdr 5 idle) (wr p16 4 0x5) = some 0x09 := by decide

/-! ### completion (section 2.8) -/

/-- E1. -/
theorem test_enc_hdr_completion : (turn (pending .encHdr 5 idle) .engine).map (fun t => (t.hdrOut, statusWord t)) =
    some (0xA005, 0x02) := by decide +kernel
/-- E2. -/
theorem test_enc_pay_completion_ref : (turn (pending .encPay 2 (hi p16)) .engine).map
    (fun t => (t.cwLen, t.cwDrop, cwbufWord t 0, statusWord t)) = some (16, 5, 0xC366, 0x42) := by decide +kernel
/-- E3. -/
theorem test_enc_pay_completion_fit : (turn (pending .encPay 2 (hi f16)) .engine).map
    (fun t => (t.cwLen, t.cwDrop, cwbufWord t 0, statusWord t)) = some (32, 0, 0x24C371, 0x02) := by decide +kernel
/-- E4. -/
theorem test_enc_msg_completion : (turn (pending .encMsg 2 (hi p16)) .engine).map
    (fun t => (t.hdrOut, t.cwLen, cwbufWord t 0)) = some (0x4114, 16, 0xC366) := by decide +kernel

/-! ### the bus (section 2.9) -/

/-- M1 and M2. -/
theorem test_config : configWord p16 = 0x00080010 ∧ configWord f16 = 0x00100810 := by decide +kernel
/-- M5, M6, M7, M9 and M11. -/
theorem test_bus_errors : answer idle (wr p16 0x002 1) = some .busError ∧
    answer idle (.bus (.read (0x2000 + 0x400) 2)) = some .busError ∧ answer idle (rd p16 0x020) = some .busError ∧
    answer idle (rd p16 0x410) = some .busError ∧ answer idle (rd p16 0x1010) = some .busError := by decide +kernel
/-- M12. -/
theorem test_status_w1c : statusAfter { idle with flags := { Flags.reset with done := true, trunc := true } }
    (wr p16 8 0x41) = some 0x02 := by decide
/-- M13. -/
theorem test_pbuf_write_while_busy : (turn (pending .encHdr 5 idle) (wr p16 0x400 0x6968)).map
    (fun t => (t.pbuf, statusWord t)) = some ([], 0x09) := by decide +kernel
/-- R78's example: the message "hi" is the word 0x00006968. -/
theorem test_pbuf_lanes : (turn idle (wr p16 0x400 0x00006968)).map (·.pbuf) =
    some [(0, 0x68), (1, 0x69), (2, 0x00), (3, 0x00)] := by decide +kernel
/-- M10: CWBUF word 3 after E2 reads 0. -/
theorem test_cwbuf_above_cw_len : ((turn (pending .encPay 2 (hi p16)) .engine).bind
    fun t => answer t (rd p16 0x100C)) = some (.data 0) := by decide +kernel

/-! ### reset (section 2.10) -/

/-- Z2. -/
theorem test_reset_abandons : (turn (pending .encMsg 2 (hi p16)) .reset).map
    (fun t => (statusWord t, t.hdrOut, t.plen, t.pbuf)) = some (0, 0, 0, []) := by decide

/-! ### the fixed names -/

/-- `withFetchWord` runs the command as the first one after reset. -/
theorem test_withFetchWord : [1, 2, 3].map (fun w => (after (State.reset.withFetchWord 32 w)).map (·.pend)) =
    [some (some { cmd := .encHdr, operand := 0 }), some (some { cmd := .encPay, operand := 0 }),
     some (some { cmd := .encMsg, operand := 0 })] := by decide

/-! ### witnesses: every hypothesis of a statement can be met -/

theorem witness_DecodingFollowsTheWordTable : busy (pending .encHdr 5 idle) = true ∧
    ∃ v : Word, v ≠ 1 ∧ v ≠ 2 ∧ v ≠ 3 := ⟨rfl, 0, by decide⟩

theorem witness_IllegalWordsAreRefusedWithEIll : (∀ i, decode 0x11 ≠ .ok i) ∧ idle.pend = none := by
  refine ⟨fun i => ?_, rfl⟩
  cases i <;> decide

theorem witness_DecodeAndEncodeAgree : Instr.encMsg.wf = true ∧ decode 0x00000003 = .ok .encMsg := by decide

theorem witness_StepRunsTheDecodedCommand :
    decode 0x00000002 = .ok .encPay ∧ decodeTableWord 32 2 = some .encPay := by decide

theorem witness_EncHdrIsAcceptedAndEncodesLenIn :
    idle.pend = none ∧ ({ idle with lenIn := 2047 } : State).lenIn.toNat ≤ 2047 := by decide

theorem witness_EncPayIsAcceptedAndEncodesPbuf :
    (hi p16).params.wf = true ∧ (hi p16).pend = none ∧ (hi p16).plen.toNat ≤ (hi p16).params.maxBytes := by decide

theorem witness_EncMsgIsAcceptedAndEncodesBoth :
    (hi f16).params.wf = true ∧ (hi f16).pend = none ∧ (hi f16).plen.toNat ≤ (hi f16).params.maxBytes := by decide

/-- Each clause at the first value out of range. -/
theorem witness_OperandsOutOfRangeAreRefused : idle.pend = none ∧
    2047 < ({ idle with lenIn := 2048 } : State).lenIn.toNat ∧
    idle.params.maxBytes < ({ idle with plen := 17 } : State).plen.toNat := by decide

/-- Each clause at its boundaries: PBUF words 0 and 3, CWBUF words 0 and 3 of the build. -/
theorem witness_BusyRefusesCommandAndOperandWrites : p16.wf = true ∧ busy (pending .encPay 2 (hi p16)) = true ∧
    0 < pbufWords p16 ∧ 3 < pbufWords p16 ∧ 0 < cwbufWords p16 ∧ 3 < cwbufWords p16 := by decide +kernel

theorem witness_RefusalSetsOneFlagAndNothingElse :
    ∃ t, step (idle.facing (wr idle.params 0x004 0) []) = .next t ∧ t.pend = idle.pend :=
  ⟨_, rfl, rfl⟩

theorem witness_HeaderCompletionWritesTheHeader :
    (pending .encHdr 2047 idle).pend = some { cmd := .encHdr, operand := 2047 } := rfl

/-- The first and the last bit of the second of two bytes are within the range of the clause on MsgBits. -/
theorem witness_PayloadCompletionWritesTheCodeword : 1 < [0x80#8, 0x01#8].length ∧ 7 < 8 ∧
    bitAt (msgBits [0x80#8, 0x01#8]) 0 = true ∧ bitAt (msgBits [0x80#8, 0x01#8]) 15 = true ∧ (pending .encPay 16 idle).params.wf = true ∧
    (pending .encPay 16 idle).pend = some { cmd := .encPay, operand := 16 } ∧ (16 : Word).toNat ≤ idle.params.maxBytes := by
  decide

theorem witness_MessageCompletionWritesBoth : (pending .encMsg 0 idle).params.wf = true ∧
    (pending .encMsg 0 idle).pend = some { cmd := .encMsg, operand := 0 } ∧ (0 : Word).toNat ≤ idle.params.maxBytes := by
  decide

theorem witness_EveryCompletionEndsIdleAndDone :
    (pending .encMsg 2 (hi p16)).pend = some { cmd := .encMsg, operand := 2 } := rfl

/-- A command that is no ENC_HDR with a legal operand. -/
theorem witness_TruncReportsDroppedBits : f16.wf = true ∧
    (pending .encPay 2 (hi f16)).pend = some { cmd := .encPay, operand := 2 } ∧ Instr.encPay ≠ .encHdr ∧
    pendingLegal f16 { cmd := .encPay, operand := 2 } = true := by decide

theorem witness_CompletionsLeaveOperandsAndOtherOutputs :
    (pending .encHdr 5 idle).pend = some { cmd := .encHdr, operand := 5 } ∧
    (pending .encPay 2 idle).pend = some { cmd := .encPay, operand := 2 } := ⟨rfl, rfl⟩

/-- Each clause at the boundaries of its range, for the build of `p16` (PW 4, CWW 4). -/
theorem witness_BadAccessesGetABusErrorAndChangeNothing : p16.wf = true ∧
    0x400 + 4 * pbufWords p16 = 0x410 ∧ 0x1000 + 4 * cwbufWords p16 = 0x1010 ∧
    (∀ off ∈ [0x002, 0x01F, 0x020, 0x3FC, 0x410, 0xFFC, 0x1010, 0x1FFC, 0x1FFF], off < 0x2000 ∧
      answer idle (wr p16 off 7) = some .busError ∧ answer idle (rd p16 off) = some .busError) := by decide +kernel

/-- Each clause at the boundaries of its range. -/
theorem witness_MappedAccessesAreAnswered :
    ∀ off ∈ [0x000, 0x01C, 0x400, 0x40C, 0x1000, 0x100C], off % 4 = 0 ∧ answer idle (wr p16 off 7) = some .ok ∧
      (answer idle (rd p16 off)).isSome = true := by decide +kernel

/-- The window's first and last byte are in it and answered, the bytes beside it stop the model. -/
theorem witness_OnlyAccessesOutsideTheWindowStop :
    [0x1FFF, 0x2000, 0x3FFF, 0x4000].map (fun a => (decide (p16.base ≤ busAddress (.read a 4) ∧
        busAddress (.read a 4) < p16.base + 0x2000), answer idle (.bus (.read a 4)) == some .busError,
        (turn idle (.bus (.read a 4))).isNone)) =
      [(false, false, true), (true, false, false), (true, true, false), (false, false, true)] := by decide +kernel

/-- Each clause at its boundaries. -/
theorem witness_ReadOnlyWritesAreIgnored : p16.wf = true ∧ 3 < cwbufWords p16 ∧
    (0xFFFFFF81#32).extractLsb' 1 6 = 0 := by decide +kernel

/-- Idle and busy, PBUF and CWBUF words at the boundaries. -/
theorem witness_ReadsReturnTheMapAndChangeNothing : idle.pend = none ∧ (pending .encHdr 5 idle).pend ≠ none ∧
    p16.wf = true ∧ 3 < pbufWords p16 ∧ 3 < cwbufWords p16 := by decide +kernel

theorem witness_WritesDoWhatTheMapSays : p16.wf = true ∧ busy idle = false ∧ busy (pending .encHdr 5 idle) = true ∧
    3 < pbufWords p16 ∧ 3 < cwbufWords p16 := by decide +kernel

theorem witness_ConfigReportsTheParameters : ({ State.resetOf f16 with lenIn := 1 } : State).params.wf = true := by
  decide

theorem witness_WrittenPbufWordReadsBack : p16.wf = true ∧ 3 < pbufWords p16 ∧ idle.pend = none := by decide

theorem witness_IdleHseDoesNothing : idle.pend = none := rfl

/-- The last data position of length 16 is number 10. -/
theorem witness_DataBitsArePlacedInOrder : 10 < cap (2 ^ 4) ∧ (dataPos (2 ^ 4)).getD 10 0 = 15 := by decide

theorem witness_CoveringSetsAreTheIndicesWithBitK : 2 ^ 3 < 16 := by decide

theorem witness_CoveringSetsHoldDataPositionsOnly : 1 ∈ ppos (2 ^ 1) ∧ 8 ∈ ppos (2 ^ 4) := by decide

theorem witness_ParityLevelsMayComeInAnyOrder : List.Perm [8, 4, 2, 1] (ppos (2 ^ 4)) := by decide

theorem witness_EncodingIsLinear : [true, false].length = [false, true].length := rfl

theorem witness_DistinctCodewordsDifferInFourPositions :
    2 ≤ 2 ∧ hBlock (2 ^ 2) [true] ≠ hBlock (2 ^ 2) [false] := by decide +kernel

theorem witness_HeaderBitsAreTheWrittenOutXors : 0 ≤ 2047 ∧ 2047 ≤ 2047 := by decide

theorem witness_HeaderParityInTermsOfTheLength : 1 ≤ 2047 := by decide

/-- B11: a fifth data bit does not fit length 8. -/
theorem witness_DroppedBitsInfluenceNothing : [true, false, true, true, true].take (cap (2 ^ 3)) =
    [true, false, true, true].take (cap (2 ^ 3)) := by decide

/-- A band of one n, and the last n of the last band. -/
theorem witness_SizesHaveTheListedValues : (1, 1, 8) ∈ [((1, 1, 8) : Nat × Nat × Nat)] ∧ 1 ≤ 1 ∧ 2047 ≤ 2047 ∧
    sizeRef 1 = 8 ∧ sizeFit 2047 = 32768 := by decide +kernel

theorem witness_SizesFitTheBuffer : 16 ≤ p16.maxBytes ∧ 1 ≤ 1 := by decide

/-- A legal state with a legal next one: idle after reset, the engine's turn. -/
theorem witness_RegistersStayLegal : RegistersLegal idle ∧ ∃ t, step idle = .next t :=
  ⟨{ params := by decide
     pbuf_canonical := by decide
     pbuf_size := fun _ h => absurd h (List.not_mem_nil)
     pend := rfl
     done_idle := fun _ => rfl
     cwLen := .inl rfl
     cwb := ⟨Nat.zero_le _, Nat.zero_le _⟩
     cwDrop := Nat.zero_le _
     fit_drops_nothing := fun _ => ⟨rfl, rfl⟩ }, _, rfl⟩

theorem witness_ResetIsLegal : p16.wf = true ∧ f16.wf = true := by decide

theorem witness_OutputsStayCodewords : RegistersLegal idle ∧ OutputsAreCodewords idle ∧ ∃ t, step idle = .next t :=
  ⟨witness_RegistersStayLegal.1, ⟨⟨0, by decide, by decide +kernel⟩, .inl ⟨rfl, rfl⟩⟩, _, rfl⟩

/-- E_ILL set, and cleared by the host's W1C write. -/
theorem witness_StickyFlagsClearOnlyByHostOrReset :
    ∃ t, step (State.facing { idle with flags := { Flags.reset with eIll := true } } (wr p16 0x008 0x04) []) = .next t ∧
      getFlag .eIll { Flags.reset with eIll := true } = true ∧ getFlag .eIll t.flags = false :=
  ⟨_, rfl, rfl, rfl⟩

/-- E_ILL clear, and set by an illegal word. -/
theorem witness_NoStepRaisesTwoFlags : ∃ t, step (idle.facing (wr p16 0x004 0x13) []) = .next t ∧
    getFlag .eIll idle.flags = false ∧ getFlag .eIll t.flags = true := ⟨_, rfl, rfl, rfl⟩

/-- BUSY set by an accepted command, and cleared by its completion. -/
theorem witness_BusyChangesOnlyByAcceptanceCompletionOrReset :
    (∃ t, step (idle.facing (wr p16 0x004 1) []) = .next t ∧ busy idle = false ∧ busy t = true) ∧
    ∃ t, step ((pending .encHdr 5 idle).facing .reset []) = .next t ∧ busy (pending .encHdr 5 idle) = true ∧
      busy t = false := ⟨⟨_, rfl, rfl, rfl⟩, ⟨_, rfl, rfl, rfl⟩⟩

theorem witness_OperandsAreHeldWhileBusy : (pending .encPay 2 (hi p16)).pend = some { cmd := .encPay, operand := 2 } ∧
    ∃ t, step ((pending .encPay 2 (hi p16)).facing (wr p16 0x010 5) []) = .next t := ⟨rfl, _, rfl⟩

theorem witness_OutputsChangeOnlyByCompletionOrReset : ∃ t, step (idle.facing (rd p16 0x014) []) = .next t := ⟨_, rfl⟩

theorem witness_CompletionIsEventual :
    (pending .encHdr 5 idle).pend = some { cmd := .encHdr, operand := 5 } ∧
    ∀ e ∈ [rd p16 0x008, wr p16 0x010 5, .engine], inWindow p16 e = true ∧ e ≠ .reset := ⟨rfl, by decide⟩

/-- W1C of DONE and TRUNC, with "hi" under REF, which drops 5 bits. -/
theorem witness_StatusClearAndCompletionInEitherOrder : (0x42#32).getLsbD 1 = true ∧ (0x42#32).getLsbD 6 = true ∧
    (pending .encPay 2 (hi p16)).pend = some { cmd := .encPay, operand := 2 } ∧ Instr.encPay ≠ .encHdr ∧
    0 < dropCount 2 (size p16.sizing 2) := by decide +kernel

theorem witness_SameBytesGiveTheSameOutputs : Instr.encMsg ≠ .encHdr ∧
    (pending .encMsg 2 (hi p16)).pend = some { cmd := .encMsg, operand := 2 } ∧
    ∀ k < 2, ∃ b, (hi p16).pbuf.read k = some b := by
  refine ⟨by decide, rfl, fun k hk => ?_⟩
  have : k = 0 ∨ k = 1 := by omega
  rcases this with rfl | rfl
  · exact ⟨0x68, by decide⟩
  · exact ⟨0x69, by decide⟩

/-- Two states that differ in storage above CW_LEN. -/
theorem witness_StorageAboveCwLenIsNeverVisible :
    SameVisible { idle with cwb := [true] } { idle with cwb := [false, true] } ∧
    ({ idle with cwb := [true] } : State) ≠ { idle with cwb := [false, true] } :=
  ⟨⟨rfl, fun i hi => absurd hi (Nat.not_lt_zero i)⟩, by decide⟩

end Sys2Proof.Tests
end

section
/-! PROOFS. The register state: what a read of STATUS, CONFIG and CWBUF returns bit by bit, the bound on LMAX, what each
turn does to PEND, and from them the statements of spec/10_state.md. -/

namespace Sys2Proof.Machine

open Sys2Proof

/-! ### accesses and reset as steps -/

/-- A host's 32-bit write at a mapped offset, as a step. -/
theorem step_wr (s : State) (rest : List Event) (v : Word) {off : Nat} {l : Location} (h4 : off % 4 = 0)
    (hw : off < 0x2000) (hl : locate s.params off = some l) :
    step (s.facing (wr s.params off v) rest) = busWrite l v (s.left rest) :=
  takeTurn_wr (s := s.left rest) v h4 hw hl

/-- A host's 32-bit read at a mapped offset, as a step. -/
theorem step_rd (s : State) (rest : List Event) {off : Nat} {l : Location} (h4 : off % 4 = 0)
    (hw : off < 0x2000) (hl : locate s.params off = some l) :
    step (s.facing (rd s.params off) rest) = .next (busRead l (s.left rest)) :=
  takeTurn_rd (s := s.left rest) h4 hw hl

theorem locate_status (p : Params) : locate p 0x008 = some .status := rfl

theorem locate_config (p : Params) : locate p 0x000 = some .config := rfl

theorem step_wr_status (s : State) (rest : List Event) (v : Word) :
    step (s.facing (wr s.params 0x008 v) rest) = .next (writeStatus v (respond .ok (s.left rest))) :=
  step_wr s rest v rfl (by decide) (locate_status s.params)

theorem step_rd_status (s : State) (rest : List Event) :
    step (s.facing (rd s.params 0x008) rest) = .next { s.left rest with resp := some (.data (statusWord s)) } :=
  step_rd s rest rfl (by decide) (locate_status s.params)

theorem step_wr_config (s : State) (rest : List Event) (v : Word) :
    step (s.facing (wr s.params 0x000 v) rest) = .next { s.left rest with resp := some .ok } :=
  step_wr s rest v rfl (by decide) (locate_config s.params)

theorem step_reset (s : State) (rest : List Event) :
    step (s.facing .reset rest) = .next (applyReset (s.left rest)) := step_facing s .reset rest

/-! ### STATUS -/

/-- The bits of STATUS, in the order of R34; those above TRUNC are 0. -/
theorem getLsbD_statusWord (s : State) (b : Nat) :
    (statusWord s).getLsbD b =
      bitAt [busy s, s.flags.done, s.flags.eIll, s.flags.eBusy, s.flags.eHdrOvf, s.flags.ePlen, s.flags.trunc] b := by
  rw [statusWord, getLsbD_packBits]
  by_cases hb : b < 32
  · simp [hb]
  · rw [bitAt_eq_false_of_le (by simp only [List.length_cons, List.length_nil]; omega), Bool.and_false]

theorem getLsbD_statusWord_of_le (s : State) {b : Nat} (h : 7 ≤ b) : (statusWord s).getLsbD b = false := by
  rw [getLsbD_statusWord]
  exact bitAt_eq_false_of_le h

theorem statusWord_bit_zero (s : State) : (statusWord s).getLsbD 0 = busy s := getLsbD_statusWord s 0

@[simp] theorem busy_writeStatus (v : Word) (s : State) : busy (writeStatus v s) = busy s := rfl

@[simp] theorem busy_left (s : State) (rest : List Event) : busy (s.left rest) = busy s := rfl

theorem extractLsb'_statusWord_reserved (s : State) : (statusWord s).extractLsb' 7 25 = 0 := by
  refine BitVec.eq_of_getLsbD_eq fun i hi => ?_
  rw [BitVec.getLsbD_extractLsb', getLsbD_statusWord_of_le s (Nat.le_add_right 7 i)]
  simp

/-- W1C on STATUS as a read sees it (R42): every bit but BUSY loses the 1 bits of the written word. -/
theorem getLsbD_statusWord_writeStatus (v : Word) (s : State) {b : Nat} (h : 1 ≤ b) :
    (statusWord (writeStatus v s)).getLsbD b = ((statusWord s).getLsbD b && !v.getLsbD b) := by
  by_cases h7 : 7 ≤ b
  · simp only [getLsbD_statusWord_of_le _ h7, Bool.false_and]
  · rw [getLsbD_statusWord, getLsbD_statusWord]
    interval_cases b <;> rfl

/-! ### after a reset -/

/-- Bit `b` of a CWBUF word while idle (R47, R76). -/
theorem getLsbD_cwbufWord (s : State) (w : Nat) {b : Nat} (hb : b < 32) :
    (cwbufWord s w).getLsbD b = (decide (32 * w + b < s.cwLen.toNat) && bitAt s.cwb (32 * w + b)) := by
  rw [cwbufWord, getLsbD_packBits]
  simp [bitAt, hb]

theorem cwbufWord_of_cwLen_zero {s : State} (h : s.cwLen = 0) (w : Nat) : cwbufWord s w = 0 := by
  refine BitVec.eq_of_getLsbD_eq fun b hb => ?_
  rw [getLsbD_cwbufWord s w hb, h]
  simp

theorem statusWord_applyReset (s : State) : statusWord (applyReset s) = 0 := rfl

theorem readValue_cwbuf_applyReset (s : State) (w : Nat) : readValue (applyReset s) (.cwbuf w) = 0 :=
  cwbufWord_of_cwLen_zero (applyReset_cwLen s) w

/-! ### capacity and the bound on LMAX -/

/-- Strictly between two consecutive powers of two every index is a data position. -/
theorem isData_two_pow_add {m j : Nat} (h0 : 0 < j) (hj : j < 2 ^ m) : isData (2 ^ m + j) = true := by
  refine (isData_iff _).2 ⟨by omega, ?_⟩
  by_contra hp
  obtain ⟨k, hk⟩ := (isPow2_iff _).1 (by simpa using hp)
  have lower : m < k := (Nat.pow_lt_pow_iff_right Nat.one_lt_two).1 (by omega)
  have upper : k < m + 1 := (Nat.pow_lt_pow_iff_right Nat.one_lt_two).1 (by omega)
  omega

theorem cap_two_pow_add (m j : Nat) (hj : j < 2 ^ m) : cap (2 ^ m + 1 + j) = cap (2 ^ m) + j := by
  induction j with
  | zero => simp [cap_succ, isData]
  | succ j ih =>
    have hdata : isData (2 ^ m + 1 + j) = true := by
      rw [Nat.add_assoc, Nat.add_comm 1 j]
      exact isData_two_pow_add (Nat.succ_pos j) hj
    rw [← Nat.add_assoc, cap_succ, ih (Nat.lt_of_succ_lt hj), if_pos hdata, Nat.add_assoc]

/-- The capacity of a length `2 ^ m` (R123): all but the overall parity and the `m` parity positions. -/
theorem cap_two_pow (m : Nat) : cap (2 ^ m) + m + 1 = 2 ^ m := by
  induction m with
  | zero => decide
  | succ m ih =>
    have hpos := Nat.two_pow_pos m
    have hstep := cap_two_pow_add m (2 ^ m - 1) (by omega)
    rw [show 2 ^ m + 1 + (2 ^ m - 1) = 2 ^ (m + 1) by omega] at hstep
    omega

/-- The search never goes past an accepted doubling, whatever its fuel. -/
theorem firstPow2_le {ok : Nat → Bool} (fuel : Nat) {q k : Nat} (h : ok (q * 2 ^ k) = true) :
    firstPow2 ok fuel q ≤ q * 2 ^ k := by
  induction fuel generalizing q k with
  | zero => exact Nat.le_mul_of_pos_right q (Nat.two_pow_pos k)
  | succ fuel ih =>
    unfold firstPow2
    split
    · exact Nat.le_mul_of_pos_right q (Nat.two_pow_pos k)
    · next hq =>
      cases k with
      | zero => exact absurd (by simpa using h) hq
      | succ k =>
        have double : q * 2 ^ (k + 1) = 2 * q * 2 ^ k := by ring
        rw [double] at h ⊢
        exact ih h

theorem sizeRef_le {n k : Nat} (h : 8 * n ≤ 2 ^ k) : sizeRef n ≤ 2 ^ k := by
  simpa [sizeRef, npot] using
    firstPow2_le (ok := fun q => decide (8 * n ≤ q)) (8 * n) (q := 1) (k := k) (by simpa using h)

theorem sizeFit_le {n k : Nat} (h : 8 * n ≤ cap (2 ^ k)) : sizeFit n ≤ 2 ^ k := by
  simpa [sizeFit] using
    firstPow2_le (ok := fun q => decide (8 * n ≤ cap q)) (8 * n + 1) (q := 1) (k := k) (by simpa using h)

/-- No codeword of a legal length is longer than 32768 bits (R32). -/
theorem size_le (z : Sizing) {n : Nat} (h : n ≤ 2047) : size z n ≤ 32768 := by
  cases z with
  | ref => exact sizeRef_le (k := 15) (by omega)
  | fit =>
    have hcap := cap_two_pow 15
    exact sizeFit_le (k := 15) (by omega)

theorem lmax_le {p : Params} (h : p.wf = true) : lmax p ≤ 32768 := size_le p.sizing ((wf_iff p).1 h).2.1

/-! ### CONFIG: its fields, each at its place (R32), and the derived sizes (R7) -/

theorem configWord_maxBytes (p : Params) : (configWord p).extractLsb' 0 11 = BitVec.ofNat 11 p.maxBytes :=
  (BitVec.extractLsb'_append_eq_of_add_le (by decide)).trans <|
    (BitVec.extractLsb'_append_eq_of_add_le (by decide)).trans BitVec.extractLsb'_append_eq_right

theorem configWord_sizing (p : Params) : (configWord p).getLsbD 11 = (p.sizing == .fit) :=
  BitVec.getLsbD_append.trans <| BitVec.getLsbD_append.trans <| BitVec.getLsbD_append.trans <|
    (BitVec.getLsbD_ofBool (p.sizing == .fit) 0).trans (Bool.true_and _)

theorem configWord_lmax (p : Params) : (configWord p).extractLsb' 12 16 = BitVec.ofNat 16 (lmax p) :=
  (BitVec.extractLsb'_append_eq_of_add_le (by decide)).trans BitVec.extractLsb'_append_eq_left

theorem configWord_reserved (p : Params) : (configWord p).extractLsb' 28 4 = 0 :=
  BitVec.extractLsb'_append_eq_left

theorem lmax_eq (p : Params) : lmax p = if p.sizing = .fit then sizeFit p.maxBytes else sizeRef p.maxBytes := by
  unfold lmax
  cases p.sizing <;> rfl

theorem pbufWords_bounds (p : Params) : p.maxBytes ≤ 4 * pbufWords p ∧ 4 * pbufWords p < p.maxBytes + 4 := by
  unfold pbufWords
  omega

theorem cwbufWords_bounds (p : Params) : lmax p ≤ 32 * cwbufWords p ∧ 32 * cwbufWords p < lmax p + 32 := by
  unfold cwbufWords
  omega

/-! ### PEND -/

/-- What a command captures at acceptance (R102, R180). -/
theorem scalarOperand_eq (i : Instr) (s : State) :
    scalarOperand i s = if i = .encHdr then s.lenIn else s.plen := by
  cases i <;> rfl

@[simp] theorem scalarOperand_respond (i : Instr) (r : Response) (s : State) :
    scalarOperand i (respond r s) = scalarOperand i s := by
  simp only [scalarOperand_eq, respond_lenIn, respond_plen]

@[simp] theorem scalarOperand_left (i : Instr) (s : State) (rest : List Event) :
    scalarOperand i (s.left rest) = scalarOperand i s := by
  simp only [scalarOperand_eq, State.left_lenIn, State.left_plen]

/-- What one turn does to PEND (R51): nothing, an acceptance that fills it, or the engine's turn or a reset that leaves
it empty. -/
theorem TurnEffect.pend_cases {s t : State} {e : Option Event} (h : TurnEffect s e t) :
    t.pend = s.pend ∨
    (∃ v i, e = some (wr s.params 0x004 v) ∧ decode v = .ok i ∧
      t.pend = some { cmd := i, operand := scalarOperand i s }) ∨
    (t.pend = none ∧ (e = none ∨ e = some .engine ∨ e = some .reset)) := by
  cases h with
  | accepted hd hp hl hn => exact .inr (.inl ⟨_, _, rfl, hd, by rw [accept_pend, scalarOperand_respond]⟩)
  | complete he hp => exact .inr (.inr ⟨(complete_ends _ s).1, he.imp_right .inl⟩)
  | reset => exact .inr (.inr ⟨applyReset_pend s, .inr (.inr rfl)⟩)
  | _ => exact .inl rfl

/-- What one step does to PEND, by the turn at the head of the schedule. -/
theorem step_pend_cases {s t : State} (h : step s = .next t) :
    t.pend = s.pend ∨
    (∃ rest v i, s.sched = wr s.params 0x004 v :: rest ∧ decode v = .ok i ∧
      t.pend = some { cmd := i, operand := scalarOperand i s }) ∨
    (t.pend = none ∧ (s.sched = [] ∨ ∃ rest, s.sched = .engine :: rest ∨ s.sched = .reset :: rest)) := by
  obtain ⟨hs, ht⟩ | ⟨e, rest, hs, ht⟩ := step_turn h
  · obtain hp | ⟨v, i, he, -⟩ | ⟨hp, -⟩ := ht.pend_cases
    · exact .inl hp
    · cases he
    · exact .inr (.inr ⟨hp, .inl hs⟩)
  · obtain hp | ⟨v, i, he, hd, hp⟩ | ⟨hp, he⟩ := ht.pend_cases
    · exact .inl hp
    · obtain rfl := Option.some.inj he
      exact .inr (.inl ⟨rest, v, i, hs, hd, by rw [hp, scalarOperand_left]⟩)
    · obtain he | he | he := he
      · cases he
      · obtain rfl := Option.some.inj he
        exact .inr (.inr ⟨hp, .inr ⟨rest, .inl hs⟩⟩)
      · obtain rfl := Option.some.inj he
        exact .inr (.inr ⟨hp, .inr ⟨rest, .inr hs⟩⟩)

/-! ### the statements -/

/-- Settles O26: the step is `writeStatus` on the answered state, read back bit by bit. -/
theorem statusWriteOneToClear : Obligations.StatusWriteOneToClear := by
  unfold Obligations.StatusWriteOneToClear
  refine ⟨fun s => ?_, fun s rest v => ?_⟩
  · simp only [getLsbD_statusWord]
    exact ⟨rfl, rfl, rfl, rfl, rfl, rfl, rfl⟩
  · have sticky : (writeStatus v (respond .ok (s.left rest))).flags.eBusy = true → s.flags.eBusy = true := by
      simp only [writeStatus_flags, clearFlags, respond_flags, State.left_flags, Bool.and_eq_true]
      exact And.left
    have busy_kept : (statusWord (writeStatus v (respond .ok (s.left rest)))).getLsbD 0 = (statusWord s).getLsbD 0 := by
      rw [statusWord_bit_zero, statusWord_bit_zero, busy_writeStatus, busy_respond, busy_left]
    exact ⟨_, step_wr_status s rest v, fun b h1 _ => getLsbD_statusWord_writeStatus v _ h1, busy_kept,
      extractLsb'_statusWord_reserved _, sticky, rfl, step_rd_status _ rest⟩

/-- Settles O27: the fields of `configWord`, none of them cut since MAX_BYTES ≤ 2047 and LMAX ≤ 32768. -/
theorem configReportsTheParameters : Obligations.ConfigReportsTheParameters := by
  unfold Obligations.ConfigReportsTheParameters
  refine ⟨fun p => ⟨lmax_eq p, pbufWords_bounds p, cwbufWords_bounds p⟩, fun s hwf => ?_⟩
  have hmax : s.params.maxBytes ≤ 2047 := ((wf_iff s.params).1 hwf).2.1
  have hlmax := lmax_le hwf
  refine ⟨?_, ?_, ?_, hlmax, configWord_reserved s.params,
    fun rest v => ⟨step_wr_config s rest v, _, step_reset s rest, rfl⟩⟩
  · exact (congrArg BitVec.toNat (configWord_maxBytes s.params)).trans (Nat.mod_eq_of_lt (by omega))
  · exact (congrArg (· = true) (configWord_sizing s.params)).to_iff.trans beq_iff_eq
  · exact (congrArg BitVec.toNat (configWord_lmax s.params)).trans (Nat.mod_eq_of_lt (by omega))

/-- Settles O53: BUSY is a view of PEND, and `step_pend_cases` says how a step can change PEND. -/
theorem busyChangesOnlyByAcceptanceCompletionOrReset :
    Obligations.BusyChangesOnlyByAcceptanceCompletionOrReset := by
  unfold Obligations.BusyChangesOnlyByAcceptanceCompletionOrReset
  refine ⟨fun s => ?_, fun s t h => ?_⟩
  · rw [statusWord_bit_zero, busy_eq_true_iff]
  · obtain hkept | ⟨rest, v, i, hs, hd, hfull⟩ | ⟨hempty, hs⟩ := step_pend_cases h
    · have same : busy t = busy s := congrArg Option.isSome hkept
      rw [same]
      exact ⟨fun h0 h1 => absurd (h0.symm.trans h1) (by decide), fun h1 h0 => absurd (h0.symm.trans h1) (by decide)⟩
    · have full : busy t = true := congrArg Option.isSome hfull
      exact ⟨fun _ _ => ⟨rest, v, i, hs, hd, scalarOperand_eq i s ▸ hfull⟩,
        fun _ h0 => absurd (h0.symm.trans full) (by decide)⟩
    · have empty : busy t = false := congrArg Option.isSome hempty
      exact ⟨fun _ h1 => absurd (empty.symm.trans h1) (by decide), fun _ _ => hs⟩

/-- Settles O56: the step is `applyReset`, whose fields are those of R52. -/
theorem resetRestoresEveryRegister : Obligations.ResetRestoresEveryRegister := by
  unfold Obligations.ResetRestoresEveryRegister
  intro s rest
  exact ⟨_, step_reset s rest, statusWord_applyReset _, applyReset_lenIn _, applyReset_plen _, applyReset_hdrOut _,
    applyReset_cwLen _, applyReset_cwDrop _, applyReset_pend _, fun _ => rfl, applyReset_params _, rfl, rfl,
    readValue_cwbuf_applyReset _, applyReset_sched _, applyReset_draws _, applyReset_resp _⟩

end Sys2Proof.Machine
end

section
/-! PROOFS. The register window: which offsets answer a bus error, what a read of each location returns, what a write to
each does, and from them the statements of spec/20_memory.md. -/

namespace Sys2Proof.Machine

open Sys2Proof

/-! ### the address map -/

/-- CWBUF ends at or below the end of the window, since LMAX is at most 32768 (R71). -/
theorem cwbufWords_le {p : Params} (h : p.wf = true) : cwbufWords p ≤ 1024 := by
  have hlmax := lmax_le h
  have hcww := cwbufWords_bounds p
  omega

/-- Nothing stands at the offsets R72 calls unmapped. -/
theorem locate_eq_none {p : Params} (hwf : p.wf = true) {off : Nat}
    (h : (0x020 ≤ off ∧ off < 0x400) ∨ (0x400 + 4 * pbufWords p ≤ off ∧ off < 0x1000) ∨
      0x1000 + 4 * cwbufWords p ≤ off) : locate p off = none := by
  have hpw := pbufWords_le hwf
  cases hl : locate p off with
  | none => rfl
  | some l =>
    have hstands := locate_cases hl
    cases l <;> simp only [StandsAt] at hstands <;> omega

/-- An access of another width, off alignment or at an unmapped offset fails a bus check (R72, R73). -/
theorem busTarget_eq_none {p : Params} (hwf : p.wf = true) {off bytes : Nat}
    (h : bytes ≠ 4 ∨ off % 4 ≠ 0 ∨ (0x020 ≤ off ∧ off < 0x400) ∨
      (0x400 + 4 * pbufWords p ≤ off ∧ off < 0x1000) ∨ 0x1000 + 4 * cwbufWords p ≤ off) :
    busTarget p off bytes = none := by
  unfold busTarget
  split
  · next hok =>
    obtain ⟨hbytes, halign⟩ := hok
    obtain h | h | h := h
    · exact absurd hbytes h
    · exact absurd halign h
    · exact locate_eq_none hwf h
  · rfl

/-! ### accesses as steps -/

/-- An access that fails a bus check is answered with an error response and nothing else (R74). -/
theorem step_busError (s : State) (rest : List Event) {off bytes : Nat} (v : Word) (hw : off < 0x2000)
    (h : busTarget s.params off bytes = none) :
    step (s.facing (.bus (.read (s.params.base + off) bytes)) rest) =
      .next { s.left rest with resp := some .busError } ∧
    step (s.facing (.bus (.write (s.params.base + off) bytes v)) rest) =
      .next { s.left rest with resp := some .busError } := by
  have hoff := windowOffset_add s.params (show off < Config.windowBytes from hw)
  constructor <;> simp only [step_facing, takeTurn, hostAccess, State.left_params, hoff, h, respond]

/-- What a read returns does not depend on the turns still to come. -/
theorem readValue_left (s : State) (rest : List Event) (l : Location) :
    readValue (s.left rest) l = readValue s l := by
  cases l <;> rfl

/-- A read of a location answers its value and changes nothing of the HSE (R76, R81). -/
theorem step_rd_location (s : State) (rest : List Event) {off : Nat} {l : Location} (h4 : off % 4 = 0)
    (hw : off < 0x2000) (hl : locate s.params off = some l) :
    step (s.facing (rd s.params off) rest) =
      .next { s.left rest with resp := some (.data (readValue s l)), draws := s.draws + drawsOfRead l } := by
  rw [step_rd s rest h4 hw hl, busRead, readValue_left]
  rfl

theorem step_rd_pbuf (s : State) (rest : List Event) {j : Nat} (hwf : s.params.wf = true)
    (hj : j < pbufWords s.params) :
    step (s.facing (rd s.params (0x400 + 4 * j)) rest) =
      .next { s.left rest with resp := some (.data (readValue s (.pbuf j))), draws := s.draws + 4 } := by
  have hpw := pbufWords_le hwf
  exact step_rd_location s rest (by omega) (by omega) (locate_pbuf s.params hj hwf)

theorem step_rd_cwbuf (s : State) (rest : List Event) {w : Nat} (hwf : s.params.wf = true)
    (hcw : w < cwbufWords s.params) :
    step (s.facing (rd s.params (0x1000 + 4 * w)) rest) =
      .next { s.left rest with resp := some (.data (readValue s (.cwbuf w))), draws := s.draws + 1 } := by
  have hcww := cwbufWords_le hwf
  exact step_rd_location s rest (by omega) (by omega) (locate_cwbuf s.params hcw hwf)

theorem step_wr_pbuf (s : State) (rest : List Event) (v : Word) {j : Nat} (hwf : s.params.wf = true)
    (hj : j < pbufWords s.params) :
    step (s.facing (wr s.params (0x400 + 4 * j) v) rest) = busWrite (.pbuf j) v (s.left rest) := by
  have hpw := pbufWords_le hwf
  exact step_wr s rest v (by omega) (by omega) (locate_pbuf s.params hj hwf)

theorem step_wr_cwbuf (s : State) (rest : List Event) (v : Word) {w : Nat} (hwf : s.params.wf = true)
    (hcw : w < cwbufWords s.params) :
    step (s.facing (wr s.params (0x1000 + 4 * w) v) rest) = .next { s.left rest with resp := some .ok } := by
  have hcww := cwbufWords_le hwf
  exact step_wr s rest v (by omega) (by omega) (locate_cwbuf s.params hcw hwf)

/-- A write to a read-only location is answered and ignored (R75). -/
theorem step_wr_readOnly (s : State) (rest : List Event) (v : Word) {off : Nat} (hwf : s.params.wf = true)
    (h : off = 0x000 ∨ off = 0x014 ∨ off = 0x018 ∨ off = 0x01C ∨
      ∃ w < cwbufWords s.params, off = 0x1000 + 4 * w) :
    step (s.facing (wr s.params off v) rest) = .next { s.left rest with resp := some .ok } := by
  obtain rfl | rfl | rfl | rfl | ⟨w, hcw, rfl⟩ := h
  · exact step_wr_config s rest v
  · exact step_wr s rest v (l := .hdrOut) rfl (by decide) rfl
  · exact step_wr s rest v (l := .cwLen) rfl (by decide) rfl
  · exact step_wr s rest v (l := .cwDrop) rfl (by decide) rfl
  · exact step_wr_cwbuf s rest v hwf hcw

/-! ### STATUS -/

/-- A written word with bits 6:1 all 0 clears no flag (R42, R75). -/
theorem clearFlags_eq_self {v : Word} (h : v.extractLsb' 1 6 = 0) (f : Flags) : clearFlags v f = f := by
  have hbit : ∀ i < 6, v.getLsbD (1 + i) = false := fun i hi => by
    simpa [BitVec.getLsbD_extractLsb', hi] using congrArg (·.getLsbD i) h
  simp only [clearFlags, hbit 0 (by decide), hbit 1 (by decide), hbit 2 (by decide), hbit 3 (by decide),
    hbit 4 (by decide), hbit 5 (by decide), Bool.not_false, Bool.and_true]

/-! ### what a read returns -/

/-- While idle an output reads as it is (R241). -/
theorem outputRead_idle {s : State} (h : s.pend = none) (v : Word) : outputRead s v = v := by
  rw [outputRead, (busy_eq_false_iff s).2 h]
  rfl

/-- While BUSY an output reads as a draw (R241). -/
theorem outputRead_busy {s : State} (h : s.pend ≠ none) (v : Word) : outputRead s v = Config.freeWord s.draws :=
  if_pos (Option.isSome_iff_ne_none.2 h)

/-- A lane of a PBUF word: the byte where its mark is 1, else a draw of its own (R50, R76). -/
theorem pbufLane_eq (s : State) (j t : Nat) :
    pbufLane s j t = (s.pbuf.read (4 * j + t)).getD (Config.freeByte (s.draws + t)) := by
  unfold pbufLane
  cases s.pbuf.read (4 * j + t) <;> rfl

/-- Lane `t` of a bus word put together from the lanes `f 0` to `f 3` is `f t` (R49, R78). -/
theorem lane_fromLanes (f : Nat → Byte) {t : Nat} (ht : t < 4) :
    lane (fromLanes (f 0) (f 1) (f 2) (f 3)) t = f t := by
  unfold lane fromLanes
  interval_cases t
  · exact BitVec.extractLsb'_append_eq_right
  · exact (BitVec.extractLsb'_append_eq_of_le (by decide)).trans BitVec.extractLsb'_append_eq_right
  · exact (BitVec.extractLsb'_append_eq_of_le (by decide)).trans <|
      (BitVec.extractLsb'_append_eq_of_le (by decide)).trans BitVec.extractLsb'_append_eq_right
  · exact (BitVec.extractLsb'_append_eq_of_le (by decide)).trans <|
      (BitVec.extractLsb'_append_eq_of_le (by decide)).trans BitVec.extractLsb'_append_eq_left

/-- Each lane of a PBUF word as a read returns it (R76). -/
theorem lane_readValue_pbuf (s : State) (j : Nat) {t : Nat} (ht : t < 4) :
    lane (readValue s (.pbuf j)) t = (s.pbuf.read (4 * j + t)).getD (Config.freeByte (s.draws + t)) :=
  (lane_fromLanes (pbufLane s j) ht).trans (pbufLane_eq s j t)

/-- Each bit of a CWBUF word as a read returns it while idle (R47, R76). -/
theorem getLsbD_readValue_cwbuf {s : State} (h : s.pend = none) (w : Nat) {b : Nat} (hb : b < 32) :
    (readValue s (.cwbuf w)).getLsbD b =
      if 32 * w + b < s.cwLen.toNat then bitAt s.cwb (32 * w + b) else false := by
  rw [readValue, outputRead_idle h, getLsbD_cwbufWord s w hb]
  by_cases hlen : 32 * w + b < s.cwLen.toNat <;> simp [hlen]

/-! ### what a write of a PBUF word does -/

/-- While BUSY a write of a PBUF word sets E_BUSY and stores nothing (R77, R242). -/
theorem step_wr_pbuf_busy (s : State) (rest : List Event) (v : Word) {j : Nat} (hwf : s.params.wf = true)
    (hj : j < pbufWords s.params) (hb : busy s = true) :
    step (s.facing (wr s.params (0x400 + 4 * j) v) rest) =
      .next (raiseFlag .eBusy (respond .ok (s.left rest))) := by
  rw [step_wr_pbuf s rest v hwf hj]
  exact congrArg Host.Outcome.next (if_pos hb)

/-- While idle a write of a PBUF word stores it (R77). -/
theorem step_wr_pbuf_idle (s : State) (rest : List Event) (v : Word) {j : Nat} (hwf : s.params.wf = true)
    (hj : j < pbufWords s.params) (hb : busy s = false) :
    step (s.facing (wr s.params (0x400 + 4 * j) v) rest) =
      .next (storePbuf j v (respond .ok (s.left rest))) := by
  rw [step_wr_pbuf s rest v hwf hj]
  exact congrArg Host.Outcome.next (if_neg (by rw [busy_respond, busy_left, hb]; decide))

/-! ### the statements -/

/-- Settles O20: every one of the listed accesses fails a bus check. -/
theorem badAccessesGetABusErrorAndChangeNothing : Obligations.BadAccessesGetABusErrorAndChangeNothing := by
  unfold Obligations.BadAccessesGetABusErrorAndChangeNothing
  intro s rest off bytes v hwf hw hbad
  exact step_busError s rest v hw (busTarget_eq_none hwf hbad)

/-- Settles O23: `writeEffect` is the identity at a read-only location, and a word with bits 6:1 all 0
clears no flag. -/
theorem readOnlyWritesAreIgnored : Obligations.ReadOnlyWritesAreIgnored := by
  unfold Obligations.ReadOnlyWritesAreIgnored
  intro s rest v hwf
  refine ⟨fun off hoff => step_wr_readOnly s rest v hwf hoff, fun hv => ?_⟩
  rw [step_wr_status, writeStatus, clearFlags_eq_self hv]
  rfl

/-- Settles O24: a read is `step_rd_location`, and the value is taken apart by location and by BUSY. -/
theorem readsReturnTheMapAndChangeNothing : Obligations.ReadsReturnTheMapAndChangeNothing := by
  unfold Obligations.ReadsReturnTheMapAndChangeNothing
  intro s rest
  have hdrOut := step_rd_location s rest (l := .hdrOut) (off := 0x014) rfl (by decide) rfl
  have cwLen := step_rd_location s rest (l := .cwLen) (off := 0x018) rfl (by decide) rfl
  have cwDrop := step_rd_location s rest (l := .cwDrop) (off := 0x01C) rfl (by decide) rfl
  refine ⟨step_rd_location s rest (l := .config) rfl (by decide) rfl,
    step_rd_location s rest (l := .cmd) rfl (by decide) rfl,
    step_rd_location s rest (l := .status) rfl (by decide) rfl,
    step_rd_location s rest (l := .lenIn) rfl (by decide) rfl,
    step_rd_location s rest (l := .plen) rfl (by decide) rfl, fun hidle => ?_, fun hbusy => ?_,
    fun hwf j hj => ⟨_, step_rd_pbuf s rest hwf hj, fun t ht => lane_readValue_pbuf s j ht⟩,
    fun hwf w hcw => ⟨fun hidle => ⟨_, step_rd_cwbuf s rest hwf hcw, fun b hb => ?_⟩, fun hbusy => ?_⟩⟩
  · simp only [readValue, outputRead_idle hidle] at hdrOut cwLen cwDrop
    exact ⟨hdrOut, cwLen, cwDrop⟩
  · simp only [readValue, outputRead_busy hbusy] at hdrOut cwLen cwDrop
    exact ⟨hdrOut, cwLen, cwDrop⟩
  · exact getLsbD_readValue_cwbuf hidle w hb
  · have cwbuf := step_rd_cwbuf s rest hwf hcw
    rwa [readValue, outputRead_busy hbusy] at cwbuf

/-- Settles O25: each write is `busWrite` of the location at its offset; PBUF by the laws of `Memory.writeWord`. -/
theorem writesDoWhatTheMapSays : Obligations.WritesDoWhatTheMapSays := by
  unfold Obligations.WritesDoWhatTheMapSays
  intro s rest v hwf
  refine ⟨step_wr s rest v (l := .cmd) rfl (by decide) rfl, step_wr_status s rest v,
    step_wr s rest v (l := .lenIn) rfl (by decide) rfl, step_wr s rest v (l := .plen) rfl (by decide) rfl,
    fun j hj => ⟨step_wr_pbuf_busy s rest v hwf hj, fun hidle =>
      ⟨s.pbuf.writeWord j v, step_wr_pbuf_idle s rest v hwf hj hidle,
        fun t ht => Memory.read_writeWord_lane s.pbuf j v ht,
        fun k hk => Memory.read_writeWord_other s.pbuf v hk⟩⟩, ?_⟩
  have ignored := fun off => step_wr_readOnly s rest v (off := off) hwf
  exact ⟨ignored _ (.inl rfl), ignored _ (.inr (.inl rfl)), ignored _ (.inr (.inr (.inl rfl))),
    ignored _ (.inr (.inr (.inr (.inl rfl)))), fun w hcw => step_wr_cwbuf s rest v hwf hcw⟩

end Sys2Proof.Machine
end

section
/-! PROOFS. Command words: a word decodes to a command exactly when it is that command's encoding, what a write of a
word to CMD does while busy and of an illegal word while idle, and from them the statements of spec/30_encoding.md. -/

namespace Sys2Proof.Machine

open Sys2Proof

/-! ### fields and words -/

/-- A word is its two fields put together again (R100). -/
theorem assemble_wordFields (v : Word) : assemble (wordFields v) = v :=
  (BitVec.extractLsb'_append_extractLsb'_eq_extractLsb' rfl).trans BitVec.extractLsb'_eq_self

theorem wordFields_encode (i : Instr) : wordFields (encode i) = { op := opOf i, rsv := 0 } := by
  cases i with
  | encHdr => exact Laws.WordFields.encHdr.1
  | encPay => exact Laws.WordFields.encPay.1
  | encMsg => exact Laws.WordFields.encMsg.1

/-- The fields of a word are a command's exactly when the word is the command's. -/
theorem wordFields_eq_iff (v : Word) (i : Instr) :
    wordFields v = { op := opOf i, rsv := 0 } ↔ v = encode i := by
  constructor
  · intro h
    rw [← assemble_wordFields v, h, encode]
  · rintro rfl
    exact wordFields_encode i

/-! ### the decoder -/

/-- An OP value selects a command exactly when it is the command's (R101). -/
theorem decodeOp_eq_ok_iff (op : BitVec 4) (i : Instr) : decodeOp op = .ok i ↔ op = opOf i := by
  constructor
  · unfold decodeOp
    split_ifs with hHdr hPay hMsg
    · rintro ⟨⟩; exact hHdr
    · rintro ⟨⟩; exact hPay
    · rintro ⟨⟩; exact hMsg
    · rintro ⟨⟩
  · rintro rfl
    cases i <;> rfl

/-- The decoder by fields (R103, R104). -/
theorem decode_eq_ok_iff_fields (v : Word) (i : Instr) :
    decode v = .ok i ↔ v.extractLsb' 4 28 = 0 ∧ v.extractLsb' 0 4 = opOf i := by
  rw [← decodeOp_eq_ok_iff]
  unfold decode
  dsimp only [wordFields]
  split_ifs with hrsv
  · exact (and_iff_right hrsv).symm
  · exact iff_of_false nofun fun h => hrsv h.1

/-- The decoder by whole words (R105). -/
theorem decode_eq_ok_iff (v : Word) (i : Instr) : decode v = .ok i ↔ v = encode i := by
  rw [decode_eq_ok_iff_fields, ← wordFields_eq_iff, wordFields, Cmd32.mk.injEq, and_comm]

theorem exists_instr_iff (P : Instr → Prop) : (∃ i, P i) ↔ P .encHdr ∨ P .encPay ∨ P .encMsg := by
  constructor
  · rintro ⟨i, h⟩
    cases i with
    | encHdr => exact .inl h
    | encPay => exact .inr (.inl h)
    | encMsg => exact .inr (.inr h)
  · rintro (h | h | h) <;> exact ⟨_, h⟩

/-- Legality by fields (R103, R104). -/
theorem decodes_iff_fields (v : Word) :
    (∃ i, decode v = .ok i) ↔
      v.extractLsb' 4 28 = 0 ∧ (v.extractLsb' 0 4 = 1 ∨ v.extractLsb' 0 4 = 2 ∨ v.extractLsb' 0 4 = 3) := by
  simp only [decode_eq_ok_iff_fields, exists_and_left]
  exact and_congr_right fun _ => exists_instr_iff _

/-- Legality by whole words (R104). -/
theorem decodes_iff_words (v : Word) :
    (∃ i, decode v = .ok i) ↔ v = 0x00000001#32 ∨ v = 0x00000002#32 ∨ v = 0x00000003#32 := by
  simp only [decode_eq_ok_iff]
  exact exists_instr_iff _

/-- A word that is no command's is refused by the decoder. -/
theorem decode_eq_error {v : Word} (h : ∀ i, decode v ≠ .ok i) : ∃ x, decode v = .error x := by
  cases hd : decode v with
  | error x => exact ⟨x, rfl⟩
  | ok i => exact absurd hd (h i)

/-! ### a write to CMD -/

/-- BUSY is checked before the word is looked at (R105, R170). -/
theorem presentWord_busy (v : Word) {s : State} (h : busy s = true) :
    presentWord v s = .next (raiseFlag .eBusy s) := if_pos h

/-- While idle, a word that does not decode raises IllegalCommand (R203). -/
theorem presentWord_illegal {v : Word} {x : Illegal} {s : State} (hd : decode v = .error x) (hp : s.pend = none) :
    presentWord v s = .next (raiseFlag .eIll s) := by
  have idle : ¬ busy s = true := by rw [(busy_eq_false_iff s).2 hp]; decide
  rw [presentWord, if_neg idle, hd]

theorem step_wr_cmd (s : State) (rest : List Event) (v : Word) :
    step (s.facing (wr s.params 0x004 v) rest) = presentWord v (respond .ok (s.left rest)) :=
  step_wr s rest v (l := .cmd) rfl (by decide) rfl

/-! ### the statements -/

/-- Settles O2: both forms of legality are `decode_eq_ok_iff` read at the three commands, and the step is
`presentWord` of a word that does not decode. -/
theorem illegalWordsAreRefusedWithEIll : Obligations.IllegalWordsAreRefusedWithEIll := by
  unfold Obligations.IllegalWordsAreRefusedWithEIll
  intro v
  refine ⟨decodes_iff_fields v, decodes_iff_words v, fun s rest hill hidle => ?_⟩
  obtain ⟨x, hd⟩ := decode_eq_error hill
  exact (step_wr_cmd s rest v).trans (presentWord_illegal hd hidle)

/-- Settles O1: the decoder by whole words, and the BUSY check of `presentWord`, which comes first. -/
theorem decodingFollowsTheWordTable : Obligations.DecodingFollowsTheWordTable := by
  unfold Obligations.DecodingFollowsTheWordTable
  intro v
  refine ⟨(decode_eq_ok_iff v .encHdr).2, (decode_eq_ok_iff v .encPay).2, (decode_eq_ok_iff v .encMsg).2,
    fun h1 h2 h3 => decode_eq_error fun i hd => ?_, fun s rest hbusy => ?_⟩
  · obtain h | h | h := (decodes_iff_words v).1 ⟨i, hd⟩
    · exact h1 h
    · exact h2 h
    · exact h3 h
  · exact (step_wr_cmd s rest v).trans (presentWord_busy v hbusy)

end Sys2Proof.Machine
end

section
/-! PROOFS. The encoding functions: where data placement puts each data bit, the parity bits of a finished block and
their covering sets, the header written out from them, and the two sizings as least powers of two. -/

namespace Sys2Proof.Machine

open Sys2Proof

/-! ### data positions -/

theorem dataPos_succ (L : Nat) : dataPos (L + 1) = dataPos L ++ if isData L then [L] else [] := by
  rw [dataPos, List.range_succ, List.filter_append, ← dataPos, List.filter_singleton, Bool.cond_eq_ite]

theorem pairwise_lt_dataPos (L : Nat) : (dataPos L).Pairwise (· < ·) := List.pairwise_lt_range.filter _

theorem mem_dataPos_iff_ne_two_pow {i L : Nat} : i ∈ dataPos L ↔ 1 ≤ i ∧ i < L ∧ ∀ k, i ≠ 2 ^ k := by
  have hpow : isPow2 i = false ↔ ∀ k, i ≠ 2 ^ k := by
    rw [← Bool.not_eq_true, isPow2_iff, not_exists]
  rw [mem_dataPos, isData_iff, hpow, Nat.one_le_iff_ne_zero, and_left_comm]

theorem isData_getD_dataPos {L j : Nat} (h : j < cap L) :
    (dataPos L).getD j 0 < L ∧ isData ((dataPos L).getD j 0) = true := by
  rw [List.getD_eq_getElem _ _ h]
  exact mem_dataPos.1 (List.getElem_mem h)

/-- Data position number `j` has `j` data positions below it. -/
theorem cap_getD_dataPos {L j : Nat} (h : j < cap L) : cap ((dataPos L).getD j 0) = j := by
  induction L with
  | zero => exact absurd h (Nat.not_lt_zero j)
  | succ L ih =>
    rw [dataPos_succ]
    by_cases hj : j < cap L
    · rw [List.getD_append _ _ _ _ hj, ih hj]
    · rw [List.getD_append_right _ _ _ _ (Nat.le_of_not_lt hj)]
      rw [cap_succ] at h
      split at h
      · next hdata =>
        have last : j = cap L := by omega
        rw [if_pos hdata, last, ← cap, Nat.sub_self, List.getD_cons_zero]
      · omega

/-- A finished block holds data bit `j` at data position number `j`, and 0 there once the data is used up (R130). -/
theorem bitAt_hBlock_dataPos {L j : Nat} (d : List Bool) (h : j < cap L) :
    bitAt (hBlock L d) ((dataPos L).getD j 0) = bitAt d j := by
  have hpos := isData_getD_dataPos h
  rw [bitAt_hBlock_data L d hpos.2, bitAt_place, if_pos hpos, cap_getD_dataPos h]

/-- Data that fills a block exactly is read back from the data positions, in order. -/
theorem map_bitAt_hBlock_dataPos {L : Nat} {d : List Bool} (h : d.length = cap L) :
    (dataPos L).map (bitAt (hBlock L d)) = d := by
  refine ext_bitAt ((List.length_map _).trans h.symm) fun j hj => ?_
  rw [List.length_map] at hj
  rw [← bitAt_hBlock_dataPos d hj, List.getD_eq_getElem _ _ hj]
  simp [bitAt, hj]

/-! ### parity positions -/

theorem mem_ppos_iff_two_pow {p L : Nat} : p ∈ ppos L ↔ p < L ∧ ∃ k, p = 2 ^ k := by
  rw [mem_ppos, isPow2_iff]

theorem covers_two_pow_iff (k i : Nat) :
    covers (2 ^ k) i = true ↔ 0 < i ∧ i ≠ 2 ^ k ∧ i.testBit k = true := by
  simp [covers, and_assoc]

/-- A parity bit of a finished block is the exclusive or of the block's own bits over its covering set: the set holds
data positions only, which no parity level changes (R131, R133). -/
theorem bitAt_hBlock_parity {L p : Nat} (d : List Bool) (hp : p ∈ ppos L) :
    bitAt (hBlock L d) p = xorOver (cover p L) (bitAt (hBlock L d)) := by
  obtain ⟨hL, hpow⟩ := mem_ppos.1 hp
  rw [hBlock, bitAt_hBlockInOrder_pos (List.Perm.refl _) d (pos_of_isPow2 hpow).ne', if_pos ⟨hL, hpow⟩]
  exact xorOver_congr fun i hi => (bitAt_hBlock_data L d (isData_of_covers hpow (mem_cover.1 hi).2)).symm

/-- The four covering sets the source lists for a block of 16 bits (R132). -/
theorem cover_sixteen :
    cover 1 16 = [3, 5, 7, 9, 11, 13, 15] ∧ cover 2 16 = [3, 6, 7, 10, 11, 14, 15] ∧
    cover 4 16 = [5, 6, 7, 12, 13, 14, 15] ∧ cover 8 16 = [9, 10, 11, 12, 13, 14, 15] := by decide

/-! ### the header -/

theorem dataPos_sixteen : dataPos 16 = [3, 5, 6, 7, 9, 10, 11, 12, 13, 14, 15] := by decide

theorem length_lengthEncoder (len : Nat) : (lengthEncoder len).length = 16 := length_hBlock ..

/-- The data positions of the header carry the 11 bits of the length, most significant first (R140, R141). -/
theorem lengthEncoder_dataBits (len : Nat) : (dataPos 16).map (bitAt (lengthEncoder len)) = bits11 len :=
  map_bitAt_hBlock_dataPos (length_bits11 len)

theorem lengthEncoder_parityBit (len : Nat) {p : Nat} (hp : p ∈ ppos 16) :
    bitAt (lengthEncoder len) p = xorOver (cover p 16) (bitAt (lengthEncoder len)) :=
  bitAt_hBlock_parity (bits11 len) hp

theorem lengthEncoder_overallParity (len : Nat) :
    bitAt (lengthEncoder len) 0 =
      xorOver [1, 2, 3, 4, 5, 6, 7, 8, 9, 10, 11, 12, 13, 14, 15] (bitAt (lengthEncoder len)) :=
  bitAt_hBlockInOrder_zero (ppos 16) 16 (bits11 len)

/-! ### the sizings -/

theorem exists_firstPow2_eq (ok : Nat → Bool) (fuel q : Nat) : ∃ k, firstPow2 ok fuel q = q * 2 ^ k := by
  induction fuel generalizing q with
  | zero => exact ⟨0, (Nat.mul_one q).symm⟩
  | succ fuel ih =>
    rw [firstPow2]
    split
    · exact ⟨0, (Nat.mul_one q).symm⟩
    · obtain ⟨k, hk⟩ := ih (2 * q)
      exact ⟨k + 1, by rw [hk]; ring⟩

/-- The search ends at an accepted doubling when its fuel reaches one. -/
theorem firstPow2_accepted {ok : Nat → Bool} {fuel q : Nat} (h : ok (q * 2 ^ fuel) = true) :
    ok (firstPow2 ok fuel q) = true := by
  induction fuel generalizing q with
  | zero => simpa [firstPow2] using h
  | succ fuel ih =>
    rw [firstPow2]
    split
    · assumption
    · have double : q * 2 ^ (fuel + 1) = 2 * q * 2 ^ fuel := by ring
      exact ih (double ▸ h)

/-- The search from 1 finds the least accepted power of two when its fuel reaches an accepted one. -/
theorem isLeastPow2_firstPow2 {ok : Nat → Bool} {fuel : Nat} (h : ok (2 ^ fuel) = true) :
    IsLeastPow2 (fun q => ok q = true) (firstPow2 ok fuel 1) := by
  refine ⟨?_, firstPow2_accepted (by rwa [Nat.one_mul]), fun k hk => ?_⟩
  · simpa using exists_firstPow2_eq ok fuel 1
  · simpa using firstPow2_le fuel (q := 1) (k := k) (by rwa [Nat.one_mul])

theorem isLeastPow2_sizeRef (n : Nat) : IsLeastPow2 (fun q => 8 * n ≤ q) (sizeRef n) := by
  have reached : 8 * n ≤ 2 ^ (8 * n) := Nat.lt_two_pow_self.le
  simpa [sizeRef, npot] using
    isLeastPow2_firstPow2 (ok := fun q => decide (8 * n ≤ q)) (decide_eq_true reached)

theorem isLeastPow2_sizeFit (n : Nat) : IsLeastPow2 (fun q => 8 * n ≤ cap q) (sizeFit n) := by
  have reached : 8 * n ≤ cap (2 ^ (8 * n + 1)) := by
    have hlt : 8 * n < 2 ^ (8 * n) := Nat.lt_two_pow_self
    have hcap := cap_two_pow (8 * n + 1)
    omega
  simpa [sizeFit] using
    isLeastPow2_firstPow2 (ok := fun q => decide (8 * n ≤ cap q)) (decide_eq_true reached)

/-! ### the statements -/

/-- Settles O31: a finished block holds data bit `j` at data position number `j` (`bitAt_hBlock_dataPos`), and a bit past
the end of the data is 0. -/
theorem dataBitsArePlacedInOrder : Obligations.DataBitsArePlacedInOrder := by
  unfold Obligations.DataBitsArePlacedInOrder
  refine ⟨fun L => ⟨pairwise_lt_dataPos L, fun _ => mem_dataPos_iff_ne_two_pow⟩, fun m d j hj => ?_⟩
  rw [bitAt_hBlock_dataPos d hj]
  split
  · rfl
  · next hlen => exact bitAt_eq_false_of_le (Nat.le_of_not_lt hlen)

/-- Settles O32: each parity bit by `bitAt_hBlock_parity`, the overall parity by `bitAt_hBlockInOrder_zero`. -/
theorem parityBitsAreValueXors : Obligations.ParityBitsAreValueXors := by
  unfold Obligations.ParityBitsAreValueXors
  exact ⟨fun _ _ => mem_ppos_iff_two_pow, fun m d =>
    ⟨fun _ hp => bitAt_hBlock_parity d hp, bitAt_hBlockInOrder_zero (ppos (2 ^ m)) (2 ^ m) d⟩⟩

/-- Settles O33: membership is `covers_two_pow_iff` below the length, and the four sets are `cover_sixteen`. -/
theorem coveringSetsAreTheIndicesWithBitK : Obligations.CoveringSetsAreTheIndicesWithBitK := by
  unfold Obligations.CoveringSetsAreTheIndicesWithBitK
  refine ⟨fun L k i _ => ?_, cover_sixteen⟩
  rw [mem_cover, covers_two_pow_iff, and_left_comm]

/-- Settles O43: the search of `npot` with fuel `8n` reaches `2 ^ (8n)`, which is at least `8n`. -/
theorem sizeRefIsLeastPowerOfTwo : Obligations.SizeRefIsLeastPowerOfTwo := by
  unfold Obligations.SizeRefIsLeastPowerOfTwo
  exact ⟨fun n => ⟨isLeastPow2_sizeRef n, rfl⟩, rfl⟩

/-- Settles O44: the search with fuel `8n + 1` reaches `2 ^ (8n + 1)`, whose capacity is at least `8n`. -/
theorem sizeFitIsLeastSufficientPowerOfTwo : Obligations.SizeFitIsLeastSufficientPowerOfTwo := by
  unfold Obligations.SizeFitIsLeastSufficientPowerOfTwo
  exact fun n => ⟨isLeastPow2_sizeFit n, rfl⟩

/-- Settles O40: the header is a block of 16 bits that its 11 data bits fill, so its data and parity bits are those of
`lengthEncoder_dataBits`, `lengthEncoder_parityBit` and `lengthEncoder_overallParity`, read at the listed positions. -/
theorem headerBitsAreTheWrittenOutXors : Obligations.HeaderBitsAreTheWrittenOutXors := by
  unfold Obligations.HeaderBitsAreTheWrittenOutXors
  intro len _ h l
  obtain ⟨c1, c2, c4, c8⟩ := cover_sixteen
  refine ⟨length_lengthEncoder len, ?_, ?_, ?_, ?_, ?_, ?_⟩
  · have hdata := lengthEncoder_dataBits len
    rw [dataPos_sixteen] at hdata
    simpa [bits11, Config.hdrDataBits, List.range_succ, h, l] using hdata
  · simpa [c1, h] using lengthEncoder_parityBit len (p := 1) (by decide)
  · simpa [c2, h] using lengthEncoder_parityBit len (p := 2) (by decide)
  · simpa [c4, h] using lengthEncoder_parityBit len (p := 4) (by decide)
  · simpa [c8, h] using lengthEncoder_parityBit len (p := 8) (by decide)
  · simpa [h] using lengthEncoder_overallParity len

end Sys2Proof.Machine
end

section
/-! PROOFS. The commands: everything a write to CMD does, how a packed message reads bit by bit, what each completion
writes and leaves, and from them the statements of spec/41_commands.md. -/

namespace Sys2Proof.Machine

open Sys2Proof

/-! ### acceptance -/

/-- While idle, a word that decodes is executed (R105, R170). -/
theorem presentWord_legal {v : Word} {i : Instr} {s : State} (hd : decode v = .ok i) (hp : s.pend = none) :
    presentWord v s = exec i s := by
  have idle : ¬ busy s = true := by rw [(busy_eq_false_iff s).2 hp]; decide
  rw [presentWord, if_neg idle, hd]

/-- While idle only the range check is left between a command and its acceptance (R170). -/
theorem presentCommand_idle (i : Instr) (f : EventFlag) {s : State} (hp : s.pend = none) (P : Prop) [Decidable P] :
    presentCommand i (decide P) f s = if P then raiseFlag f s else accept i s := by
  rw [presentCommand, (busy_eq_false_iff s).2 hp]
  simp

/-- ENC_HDR presented while idle (R171, R205). -/
theorem exec_encHdr_idle {s : State} (hp : s.pend = none) :
    exec .encHdr s = .next (if 2047 < s.lenIn.toNat then raiseFlag .eHdrOvf s else accept .encHdr s) :=
  congrArg Host.Outcome.next (presentCommand_idle .encHdr .eHdrOvf hp (2047 < s.lenIn.toNat))

/-- ENC_PAY or ENC_MSG presented while idle (R172, R173, R206). -/
theorem exec_payload_idle {i : Instr} (hi : i ≠ .encHdr) {s : State} (hp : s.pend = none) :
    exec i s = .next (if s.params.maxBytes < s.plen.toNat then raiseFlag .ePlen s else accept i s) := by
  have arm := presentCommand_idle i .ePlen hp (s.params.maxBytes < s.plen.toNat)
  cases i with
  | encHdr => exact absurd rfl hi
  | encPay => exact congrArg Host.Outcome.next arm
  | encMsg => exact congrArg Host.Outcome.next arm

/-! ### the message, bit by bit -/

theorem bitAt_bits8 (b : Byte) {t : Nat} (ht : t < 8) : bitAt (bits8 b) t = b.getLsbD (7 - t) := by
  simp [bitAt, bits8, ht]

/-- Message bit `8k + t` is bit `7 - t` of byte `k` (R79, R124). -/
theorem bitAt_msgBits (m : List Byte) {k t : Nat} (hk : k < m.length) (ht : t < 8) :
    bitAt (msgBits m) (8 * k + t) = (m.getD k 0).getLsbD (7 - t) := by
  induction m generalizing k with
  | nil => exact absurd hk (Nat.not_lt_zero k)
  | cons b m ih =>
    rw [msgBits, List.flatMap_cons, ← msgBits, bitAt]
    cases k with
    | zero =>
      rw [List.getD_append _ _ _ _ (by rw [length_bits8]; omega), Nat.mul_zero, Nat.zero_add]
      exact bitAt_bits8 b ht
    | succ k =>
      rw [List.getD_append_right _ _ _ _ (by rw [length_bits8]; omega), length_bits8,
        show 8 * (k + 1) + t - 8 = 8 * k + t by omega]
      exact ih (Nat.lt_of_succ_lt_succ hk)

/-- A byte the engine reads: the byte where its mark is 1, else a draw of its own (R181). -/
theorem byteval_eq (s : State) (k : Nat) : byteval s k = (s.pbuf.read k).getD (Config.freeByte (s.draws + k)) := by
  unfold byteval
  cases s.pbuf.read k <;> rfl

@[simp] theorem length_message (s : State) (n : Nat) : (message s n).length = n := by simp [message]

theorem getD_message (s : State) {n k : Nat} (hk : k < n) : (message s n).getD k 0 = byteval s k := by
  simp [message, hk]

/-- The bits of the message the engine encodes, written out (R79, R176, R181). -/
theorem msgBits_message (s : State) (n : Nat) :
    msgBits (message s n) = (List.range (8 * n)).map fun i =>
      ((s.pbuf.read (i / 8)).getD (Config.freeByte (s.draws + i / 8))).getLsbD (7 - i % 8) := by
  refine ext_bitAt (by simp) fun i hi => ?_
  rw [length_msgBits, length_message] at hi
  have hk : i / 8 < n := by omega
  calc bitAt (msgBits (message s n)) i
      = bitAt (msgBits (message s n)) (8 * (i / 8) + i % 8) := by rw [Nat.div_add_mod]
    _ = (byteval s (i / 8)).getLsbD (7 - i % 8) := by
      rw [bitAt_msgBits _ (by rwa [length_message]) (Nat.mod_lt i (by decide)), getD_message s hk]
    _ = _ := by simp [bitAt, hi, byteval_eq]

/-! ### what the completions write -/

/-- Bit `i` of HDR_OUT as a read returns it while idle is bit `i` of the image (R80). -/
theorem getLsbD_readValue_hdrOut {t : State} {len : Nat} (hp : t.pend = none) (hh : t.hdrOut = headerImage len)
    {i : Nat} (hi : i < 16) : (readValue t .hdrOut).getLsbD i = bitAt (lengthEncoder len) i := by
  have hi32 : i < 32 := by omega
  rw [readValue, outputRead_idle hp, hh, BitVec.zeroExtend, BitVec.getLsbD_setWidth, headerImage, getLsbD_packBits]
  simp [hi, hi32]

/-- HDR_OUT[31:16] reads as 0 while idle (R45). -/
theorem extractLsb'_readValue_hdrOut {t : State} (hp : t.pend = none) :
    (readValue t .hdrOut).extractLsb' 16 16 = 0 := by
  refine BitVec.eq_of_getLsbD_eq fun i hi => ?_
  rw [readValue, outputRead_idle hp, BitVec.getLsbD_extractLsb', BitVec.zeroExtend, BitVec.getLsbD_setWidth,
    BitVec.getLsbD_of_ge _ _ (Nat.le_add_right 16 i)]
  simp

theorem dropCount_le (n L : Nat) : dropCount n L ≤ 8 * n := Nat.sub_le _ _

/-- CW_DROP is wide enough for the count of dropped bits (R48). -/
theorem toNat_writePayload_cwDrop (s : State) {n : Nat} (hn : n ≤ 2047) :
    (writePayload n s).cwDrop.toNat = dropCount n (size s.params.sizing n) := by
  have bound := dropCount_le n (size s.params.sizing n)
  rw [writePayload_cwDrop, BitVec.toNat_ofNat]
  exact Nat.mod_eq_of_lt (by omega)

/-- CW_LEN is wide enough for the length of the codeword (R46). -/
theorem toNat_writePayload_cwLen (s : State) {n : Nat} (hn : n ≤ 2047) :
    (writePayload n s).cwLen.toNat = size s.params.sizing n := by
  have bound := size_le s.params.sizing hn
  rw [writePayload_cwLen, BitVec.toNat_ofNat]
  exact Nat.mod_eq_of_lt (by omega)

/-- Below its length the codeword lies in CWBUF (R176). -/
theorem bitAt_writePayload_cwb (s : State) (n : Nat) {i : Nat} (hi : i < size s.params.sizing n) :
    bitAt (writePayload n s).cwb i = bitAt (hBlock (size s.params.sizing n) (msgBits (message s n))) i := by
  rw [writePayload_cwb, payloadEncoder, length_message]
  exact List.getD_append _ _ _ _ (by rwa [length_hBlock])

/-- The outputs of R176 are what `writePayload` leaves, and so what any state that holds the same outputs has. -/
theorem payloadOutputs_of_writePayload {s t : State} {n : Nat} (hn : n ≤ 2047)
    (hcwb : t.cwb = (writePayload n s).cwb) (hlen : t.cwLen = (writePayload n s).cwLen)
    (hdrop : t.cwDrop = (writePayload n s).cwDrop) : PayloadOutputs s t n := by
  unfold PayloadOutputs
  rw [hcwb, hlen, hdrop]
  dsimp only
  rw [← msgBits_message]
  exact ⟨fun i hi => bitAt_writePayload_cwb s n hi, toNat_writePayload_cwLen s hn, toNat_writePayload_cwDrop s hn⟩

/-- The flags after a payload completion: DONE, and TRUNC when bits are dropped (R178, R179). -/
theorem writePayload_flags_done (n : Nat) (s : State) :
    ({ (writePayload n s).flags with done := true } : Flags) =
      { s.flags with
        done := true
        trunc := s.flags.trunc || decide (0 < dropCount n (size s.params.sizing n)) } := by
  rw [writePayload_flags]
  split
  · next h => simp [setFlag, h]
  · next h => simp [h]

/-- The engine's turn with a command pending is its completion (R174). -/
theorem step_engine (rest : List Event) {s : State} {q : Pending} (h : s.pend = some q) :
    step (s.facing .engine rest) = .next (complete q (s.left rest)) :=
  (step_facing s .engine rest).trans (congrArg Host.Outcome.next (engineTurn_full (s := s.left rest) h))

/-- No completion changes an event flag other than TRUNC (R178, R179). -/
theorem getFlag_complete (q : Pending) (s : State) {f : EventFlag} (hf : f ≠ .trunc) :
    getFlag f (complete q s).flags = getFlag f s.flags := by
  have payload (n : Nat) : getFlag f (writePayload n s).flags = getFlag f s.flags := by
    rw [writePayload_flags]
    split
    · exact getFlag_setFlag_other hf s.flags
    · rfl
  obtain ⟨c, o⟩ := q
  cases c with
  | encHdr => rw [complete_encHdr, completeEncHdr_flags, getFlag_done_update]
  | encPay => rw [complete_encPay, completeEncPay_flags, getFlag_done_update, payload]
  | encMsg => rw [complete_encMsg, completeEncMsg_flags, getFlag_done_update, payload]

/-- CW_DROP and the flags after either payload command's completion (R176 to R179). -/
theorem complete_payload (s : State) {q : Pending} (hq : q.cmd ≠ .encHdr) :
    (complete q s).cwDrop = (writePayload q.operand.toNat s).cwDrop ∧
    (complete q s).flags = { (writePayload q.operand.toNat s).flags with done := true } := by
  obtain ⟨c, o⟩ := q
  cases c with
  | encHdr => exact absurd rfl hq
  | encPay => exact ⟨completeEncPay_cwDrop o.toNat s, completeEncPay_flags o.toNat s⟩
  | encMsg => exact ⟨completeEncMsg_cwDrop o.toNat s, completeEncMsg_flags o.toNat s⟩

/-- A payload completion leaves TRUNC at 1 exactly when it was 1 or bits are dropped (R178). -/
theorem trunc_complete_iff (s : State) {q : Pending} (hq : q.cmd ≠ .encHdr) :
    (complete q s).flags.trunc = true ↔
      s.flags.trunc = true ∨ 0 < dropCount q.operand.toNat (size s.params.sizing q.operand.toNat) := by
  rw [(complete_payload s hq).2, writePayload_flags_done]
  exact (Bool.or_eq_true _ _).to_iff.trans (or_congr_right decide_eq_true_iff)

/-- A legal operand of a payload command is at most MAX_BYTES (R170). -/
theorem pendingLegal_payload {p : Params} {q : Pending} (hq : q.cmd ≠ .encHdr) (h : pendingLegal p q = true) :
    q.operand.toNat ≤ p.maxBytes := by
  obtain ⟨c, o⟩ := q
  cases c with
  | encHdr => exact absurd rfl hq
  | encPay => exact of_decide_eq_true h
  | encMsg => exact of_decide_eq_true h

/-- Everything (ENC_PAY, n) changes (R176, R178, R179). -/
theorem completeEncPay_eq (n : Nat) (s : State) :
    completeEncPay n s =
      { s with
        cwb := (writePayload n s).cwb, cwLen := (writePayload n s).cwLen, cwDrop := (writePayload n s).cwDrop
        pend := none, draws := s.draws + n
        flags := { s.flags with
                   done := true
                   trunc := s.flags.trunc || decide (0 < dropCount n (size s.params.sizing n)) } } := by
  rw [← writePayload_flags_done]
  simp only [completeEncPay, finish, writePayload]

/-- Everything (ENC_MSG, n) changes (R177, R178, R179): what (ENC_PAY, n) does, and HDR_OUT. -/
theorem completeEncMsg_eq (n : Nat) (s : State) :
    completeEncMsg n s = { completeEncPay n s with hdrOut := headerImage n } := by
  simp only [completeEncMsg, completeEncPay, finish, writeHeader]

/-! ### the statements -/

/-- Settles O6: BUSY, then the word, then the range check of the command the word decodes to. -/
theorem cmdWriteChecksBusyThenWordThenRange : Obligations.CmdWriteChecksBusyThenWordThenRange := by
  unfold Obligations.CmdWriteChecksBusyThenWordThenRange
  intro s rest v
  dsimp only
  rw [step_wr_cmd]
  by_cases hbusy : s.pend.isSome = true
  · rw [if_pos hbusy]
    exact presentWord_busy v hbusy
  have hp : (respond .ok (s.left rest)).pend = none := by simpa using hbusy
  have legal (i : Instr) (hi : v = encode i) := presentWord_legal ((decode_eq_ok_iff v i).2 hi) hp
  rw [if_neg hbusy]
  by_cases hHdr : v = 0x00000001#32
  · rw [if_pos hHdr]
    exact (legal .encHdr hHdr).trans (exec_encHdr_idle hp)
  rw [if_neg hHdr]
  by_cases hPayload : v = 0x00000002#32 ∨ v = 0x00000003#32
  · rw [if_pos hPayload]
    obtain rfl | rfl := hPayload
    · exact (legal .encPay rfl).trans (exec_payload_idle (by decide) hp)
    · exact (legal .encMsg rfl).trans (exec_payload_idle (by decide) hp)
  rw [if_neg hPayload]
  obtain ⟨x, hd⟩ := decode_eq_error fun i hd => ((decodes_iff_words v).1 ⟨i, hd⟩).elim hHdr hPayload
  exact presentWord_illegal hd hp

/-- Settles O14: the turn is `completeEncHdr`, and HDR_OUT reads as the image of the header. -/
theorem headerCompletionWritesTheHeader : Obligations.HeaderCompletionWritesTheHeader := by
  unfold Obligations.HeaderCompletionWritesTheHeader
  intro s rest len hp
  refine ⟨_, step_engine rest hp, fun i hi => ?_, ?_, ?_⟩
  · exact getLsbD_readValue_hdrOut (completeEncHdr_pend ..) (completeEncHdr_hdrOut ..) hi
  · exact extractLsb'_readValue_hdrOut (completeEncHdr_pend ..)
  · rfl

/-- Settles O15: the bits of a message by `bitAt_msgBits`; the turn is `completeEncPay`, whose outputs are those of
`writePayload`, none of them cut since n ≤ 2047. -/
theorem payloadCompletionWritesTheCodeword : Obligations.PayloadCompletionWritesTheCodeword := by
  unfold Obligations.PayloadCompletionWritesTheCodeword
  refine ⟨fun m => ⟨length_msgBits m, fun k t hk ht => bitAt_msgBits m hk ht⟩, fun s rest n hwf hp hn => ?_⟩
  have hmax := ((wf_iff s.params).1 hwf).2.1
  refine ⟨_, step_engine rest hp, ?_, ?_⟩
  · exact payloadOutputs_of_writePayload (s := s.left rest) (by omega) (completeEncPay_cwb ..)
      (completeEncPay_cwLen ..) (completeEncPay_cwDrop ..)
  · exact completeEncPay_eq n.toNat (s.left rest)

/-- Settles O16: the turn is `completeEncMsg`, which leaves what `completeEncPay` leaves, and the header in HDR_OUT. -/
theorem messageCompletionWritesBoth : Obligations.MessageCompletionWritesBoth := by
  unfold Obligations.MessageCompletionWritesBoth
  intro s rest n hwf hp hn
  have hmax := ((wf_iff s.params).1 hwf).2.1
  refine ⟨_, step_engine rest hp, ?_, fun i hi => ?_, ?_, ?_⟩
  · exact payloadOutputs_of_writePayload (s := s.left rest) (by omega) (completeEncMsg_cwb ..)
      (completeEncMsg_cwLen ..) (completeEncMsg_cwDrop ..)
  · exact getLsbD_readValue_hdrOut (completeEncMsg_pend ..) (completeEncMsg_hdrOut ..) hi
  · exact extractLsb'_readValue_hdrOut (completeEncMsg_pend ..)
  · have turn := completeEncMsg_eq n.toNat (s.left rest)
    rw [completeEncPay_eq] at turn
    exact turn

/-- Settles O18: either payload command's completion writes CW_DROP and the flags as `writePayload` does, and the
operand is at most 2047, so that the count fits CW_DROP. -/
theorem truncReportsDroppedBits : Obligations.TruncReportsDroppedBits := by
  unfold Obligations.TruncReportsDroppedBits
  intro s rest q hwf hp hq hlegal
  have hmax := ((wf_iff s.params).1 hwf).2.1
  have hn := pendingLegal_payload hq hlegal
  refine ⟨_, step_engine rest hp, ?_, trunc_complete_iff (s.left rest) hq⟩
  rw [(complete_payload (s.left rest) hq).1]
  exact toNat_writePayload_cwDrop (s.left rest) (by omega)

/-- Settles O17: `complete_ends` read in STATUS, and `getFlag_complete` for the other flags. -/
theorem everyCompletionEndsIdleAndDone : Obligations.EveryCompletionEndsIdleAndDone := by
  unfold Obligations.EveryCompletionEndsIdleAndDone
  intro s rest q hp
  obtain ⟨hempty, hdone⟩ := complete_ends q (s.left rest)
  refine ⟨_, step_engine rest hp, hempty, ?_, ?_, fun f hf => getFlag_complete q (s.left rest) hf⟩
  · rw [statusWord_bit_zero]
    exact (busy_eq_false_iff _).2 hempty
  · exact (getLsbD_statusWord _ 1).trans hdone

end Sys2Proof.Machine
end

section
/-! PROOFS. The exceptional events: what a write or a command does while BUSY, what a refused command word leaves, what
can clear a sticky flag, and from them the statements of spec/60_exceptions.md. -/

namespace Sys2Proof.Machine

open Sys2Proof

/-! ### refusals -/

/-- While BUSY no operand write is performed (R204, R242). -/
theorem operandWrite_busy (w : State) {s : State} (h : busy s = true) : operandWrite w s = raiseFlag .eBusy s :=
  if_pos h

/-- While BUSY a write of LEN_IN or PLEN is answered, sets E_BUSY and does nothing else (R204). -/
theorem busWrite_scalarOperand_busy (v : Word) {l : Location} {s : State} (hl : l = .lenIn ∨ l = .plen)
    (h : busy s = true) :
    busWrite l v s = .next (raiseFlag .eBusy (respond .ok s)) := by
  obtain rfl | rfl := hl
  · exact congrArg Host.Outcome.next (operandWrite_busy _ h)
  · exact congrArg Host.Outcome.next (operandWrite_busy _ h)

/-- While BUSY no command passes the first check (R170, R204). -/
theorem exec_busy (i : Instr) {s : State} (h : busy s = true) : exec i s = .next (raiseFlag .eBusy s) := by
  have refused (oor : Bool) (f : EventFlag) : presentCommand i oor f s = raiseFlag .eBusy s := if_pos h
  cases i with
  | encHdr => exact congrArg Host.Outcome.next (refused _ _)
  | encPay => exact congrArg Host.Outcome.next (refused _ _)
  | encMsg => exact congrArg Host.Outcome.next (refused _ _)

/-- A command word that leaves PEND as it was has raised one flag, not TRUNC: an acceptance fills an empty PEND
(R211). -/
theorem presentWord_refused {v : Word} {s t : State} (h : presentWord v s = .next t) (hp : t.pend = s.pend) :
    ∃ f, f ≠ .trunc ∧ t = raiseFlag f s := by
  obtain ⟨-, rfl⟩ | ⟨-, -, rfl⟩ | ⟨hidle, i, -, hx⟩ := presentWord_cases h
  · exact ⟨.eBusy, by decide, rfl⟩
  · exact ⟨.eIll, by decide, rfl⟩
  · obtain ⟨-, rfl⟩ | ⟨-, -, -, rfl⟩ | ⟨-, -, -, rfl⟩ | ⟨-, -, -, rfl⟩ := exec_cases hx
    · exact ⟨.eBusy, by decide, rfl⟩
    · exact ⟨.eHdrOvf, by decide, rfl⟩
    · exact ⟨.ePlen, by decide, rfl⟩
    · rw [accept_pend, (busy_eq_false_iff s).1 hidle] at hp
      cases hp

/-! ### sticky flags -/

/-- The bit of an event's flag in STATUS is its cause code (R34, R202). -/
theorem getFlag_eq_getLsbD_statusWord (f : EventFlag) (s : State) :
    getFlag f s.flags = (statusWord s).getLsbD (causeCode f) := by
  rw [getLsbD_statusWord]
  cases f <;> rfl

theorem setFlag_setFlag_same (f : EventFlag) (x : Flags) : setFlag f (setFlag f x) = setFlag f x := by
  cases f <;> rfl

/-- Setting a flag clears none (R201). -/
theorem getFlag_setFlag_of_set {f : EventFlag} (g : EventFlag) {x : Flags} (h : getFlag f x = true) :
    getFlag f (setFlag g x) = true := by
  by_cases hfg : f = g
  · rw [hfg, getFlag_setFlag_same]
  · rw [getFlag_setFlag_other hfg, h]

/-- No completion clears an event flag: TRUNC it can only set, the others it leaves (R178, R179, R201). -/
theorem getFlag_complete_of_set {f : EventFlag} (q : Pending) {s : State} (h : getFlag f s.flags = true) :
    getFlag f (complete q s).flags = true := by
  by_cases hf : f = .trunc
  · subst hf
    by_cases hq : q.cmd = .encHdr
    · obtain ⟨c, o⟩ := q
      obtain rfl : c = .encHdr := hq
      rwa [complete_encHdr, completeEncHdr_flags, getFlag_done_update]
    · exact (trunc_complete_iff s hq).2 (.inl h)
  · rw [getFlag_complete q s hf, h]

/-- Only a reset or a W1C write of its bit takes an event flag from 1 to 0 (R201). -/
theorem TurnEffect.clears_flag {s t : State} {e : Option Event} {f : EventFlag} (h : TurnEffect s e t)
    (hset : getFlag f s.flags = true) (hclear : getFlag f t.flags = false) :
    e = some .reset ∨ ∃ v : Word, e = some (wr s.params 0x008 v) ∧ v.getLsbD (causeCode f) = true := by
  have lost : getFlag f t.flags ≠ true := by
    rw [hclear]
    decide
  have raised (g : EventFlag) : getFlag f (setFlag g s.flags) = true := getFlag_setFlag_of_set g hset
  cases h with
  | reset => exact .inl rfl
  | status v =>
    rw [writeStatus_flags, getFlag_clearFlags, respond_flags, hset] at hclear
    exact .inr ⟨v, rfl, by simpa using hclear⟩
  | complete he hp => exact absurd (getFlag_complete_of_set _ hset) lost
  | busyWrite v hoff hb => exact absurd (raised .eBusy) lost
  | illegal hd hp => exact absurd (raised .eIll) lost
  | hdrOverflow hd hp hr => exact absurd (raised .eHdrOvf) lost
  | payloadLength hd hi hp hr => exact absurd (raised .ePlen) lost
  | accepted hd hp hl hn => exact absurd ((getFlag_done_update f _ false).trans hset) lost
  | _ => exact absurd hset lost

/-- The turn at the head of the schedule when a step takes an event flag from 1 to 0. -/
theorem step_clears_flag {s t : State} {f : EventFlag} (h : step s = .next t)
    (hset : getFlag f s.flags = true) (hclear : getFlag f t.flags = false) :
    ∃ rest, s.sched = .reset :: rest ∨
      ∃ v : Word, s.sched = wr s.params 0x008 v :: rest ∧ v.getLsbD (causeCode f) = true := by
  obtain ⟨-, ht⟩ | ⟨e, rest, hs, ht⟩ := step_turn h
  · obtain he | ⟨v, he, -⟩ := ht.clears_flag hset hclear
    · cases he
    · cases he
  · refine ⟨rest, ?_⟩
    obtain he | ⟨v, he, hv⟩ := ht.clears_flag hset hclear
    · obtain rfl := Option.some.inj he
      exact .inl hs
    · obtain rfl := Option.some.inj he
      exact .inr ⟨v, hs, hv⟩

/-! ### the statements -/

/-- Settles O11: at each of these offsets BUSY is the first check; a W1C write and an ignored one set no flag. -/
theorem busyRefusesCommandAndOperandWrites : Obligations.BusyRefusesCommandAndOperandWrites := by
  unfold Obligations.BusyRefusesCommandAndOperandWrites
  intro s rest v hwf hbusy
  refine ⟨fun off hoff => ?_, fun i => exec_busy i hbusy, fun off hoff => ?_⟩
  · obtain rfl | rfl | rfl | ⟨j, hj, rfl⟩ := hoff
    · exact (step_wr_cmd s rest v).trans (presentWord_busy v hbusy)
    · exact (step_wr s rest v (l := .lenIn) rfl (by decide) rfl).trans (busWrite_scalarOperand_busy v (.inl rfl) hbusy)
    · exact (step_wr s rest v (l := .plen) rfl (by decide) rfl).trans (busWrite_scalarOperand_busy v (.inr rfl) hbusy)
    · exact step_wr_pbuf_busy s rest v hwf hj hbusy
  · obtain rfl | rfl | hoff := hoff
    · exact ⟨_, step_wr_readOnly s rest v hwf (.inl rfl), id⟩
    · refine ⟨_, step_wr_status s rest v, fun h => ?_⟩
      rw [writeStatus_flags, clearFlags, Bool.and_eq_true] at h
      exact h.1
    · exact ⟨_, step_wr_readOnly s rest v hwf (.inr hoff), id⟩

/-- Settles O12: a CMD write that leaves PEND as it was is `raiseFlag` of one flag, on the answered state. -/
theorem refusalSetsOneFlagAndNothingElse : Obligations.RefusalSetsOneFlagAndNothingElse := by
  unfold Obligations.RefusalSetsOneFlagAndNothingElse
  intro s t rest v h hp
  rw [step_wr_cmd] at h
  obtain ⟨f, hf, rfl⟩ := presentWord_refused h hp
  exact ⟨⟨f, hf, rfl⟩, rfl⟩

/-- Settles O51: `step_clears_flag`, and the laws of `setFlag`. -/
theorem stickyFlagsClearOnlyByHostOrReset : Obligations.StickyFlagsClearOnlyByHostOrReset := by
  unfold Obligations.StickyFlagsClearOnlyByHostOrReset
  exact ⟨fun s t f h hset hclear => step_clears_flag h hset hclear, rfl,
    fun s f => getFlag_eq_getLsbD_statusWord f s,
    fun f x => ⟨getFlag_setFlag_same f x, setFlag_setFlag_same f x, fun g hg => getFlag_setFlag_other hg x⟩⟩

/-- Settles O10: while idle the range check decides, and the operand fails it. -/
theorem operandsOutOfRangeAreRefused : Obligations.OperandsOutOfRangeAreRefused := by
  unfold Obligations.OperandsOutOfRangeAreRefused
  intro s hidle
  refine ⟨fun hlen => ?_, fun hplen i hi => ?_⟩
  · rw [exec_encHdr_idle hidle, if_pos hlen]
    rfl
  · have hne : i ≠ .encHdr := by
      obtain rfl | rfl := hi <;> decide
    rw [exec_payload_idle hne hidle, if_pos hplen]
    rfl

end Sys2Proof.Machine
end

section
/-! PROOFS. Reset and hazards: runs of two scheduled turns, what a W1C write clears, and from them the statements of
spec/70_reset_and_hazards.md. -/

namespace Sys2Proof.Machine

open Sys2Proof

/-! ### the second turn of a run -/

/-- A state whose schedule begins with the turn `e` is its own `facing`, so that the step lemmas apply to it. -/
theorem State.facing_eq_self {s : State} {e : Event} {rest : List Event} (h : s.sched = e :: rest) :
    s.facing e rest = s := by
  rw [State.facing, ← h]

/-- The engine's turn, read from the schedule, with a command pending (R174). -/
theorem step_engine_of_sched {s : State} {rest : List Event} {q : Pending} (hs : s.sched = .engine :: rest)
    (hp : s.pend = some q) : step s = .next (complete q (s.left rest)) := by
  rw [← step_engine rest hp, State.facing_eq_self hs]

/-- A W1C write of STATUS, read from the schedule (R42). -/
theorem step_wr_status_of_sched {s : State} {rest : List Event} {v : Word}
    (hs : s.sched = wr s.params 0x008 v :: rest) : step s = .next (writeStatus v (respond .ok (s.left rest))) := by
  rw [← step_wr_status s rest v, State.facing_eq_self hs]

/-! ### write 1 to clear -/

/-- W1C of bit 1 leaves DONE 0 (R42). -/
theorem writeStatus_clears_done {v : Word} (s : State) (hv : v.getLsbD 1 = true) :
    (writeStatus v s).flags.done = false := by
  rw [writeStatus_flags, clearFlags_done, hv, Bool.not_true, Bool.and_false]

/-- W1C of an event flag's bit leaves the flag 0 (R42, R202). -/
theorem getFlag_writeStatus_of_bit {f : EventFlag} {v : Word} (s : State) (hv : v.getLsbD (causeCode f) = true) :
    getFlag f (writeStatus v s).flags = false := by
  rw [writeStatus_flags, getFlag_clearFlags, hv, Bool.not_true, Bool.and_false]

/-! ### the statements -/

/-- Settles O58: the W1C write keeps PEND, so the completion behind it still sets DONE and TRUNC; the completion keeps
the schedule and the build, so the W1C write behind it still clears them. -/
theorem statusClearAndCompletionInEitherOrder : Obligations.StatusClearAndCompletionInEitherOrder := by
  unfold Obligations.StatusClearAndCompletionInEitherOrder
  intro s rest q v hp
  constructor
  · exact ⟨_, _, step_wr_status s _ v, step_engine_of_sched rfl hp, (complete_ends q _).2,
      fun hq hdrop => (trunc_complete_iff _ hq).2 (.inr hdrop)⟩
  · obtain ⟨hparams, -, -, -, hsched, -⟩ := complete_frame q (s.left (wr s.params 0x008 v :: rest))
    have next_turn : (complete q (s.left (wr s.params 0x008 v :: rest))).sched =
        wr (complete q (s.left (wr s.params 0x008 v :: rest))).params 0x008 v :: rest := by
      rw [hsched, hparams, State.left_sched, State.left_params]
    exact ⟨_, _, step_engine _ hp, step_wr_status_of_sched next_turn, writeStatus_clears_done _,
      getFlag_writeStatus_of_bit (f := .trunc) _⟩

end Sys2Proof.Machine
end

section
/-! PROOFS. The two sizings and the count of dropped bits: what a length `2 ^ k` holds under a sizing, the size as the
least power of two that holds the message, the bands of sizes the spec lists, and from them the statements of
spec/40_core_functions.md section 4. -/

namespace Sys2Proof.Machine

open Sys2Proof

/-! ### what a length holds -/

theorem cap_two_pow_eq (m : Nat) : cap (2 ^ m) = 2 ^ m - 1 - m := by
  have hcap := cap_two_pow m
  omega

theorem dropCount_two_pow (n m : Nat) : dropCount n (2 ^ m) = 8 * n - (2 ^ m - 1 - m) := by
  rw [dropCount, cap_two_pow_eq]

/-- The message bits a length `2 ^ k` may be given under a sizing: as many as it has bits under REF (R146), as many as
its capacity under FIT (R147). -/
def heldBits : Sizing → Nat → Nat
  | .ref, k => 2 ^ k
  | .fit, k => 2 ^ k - 1 - k

theorem heldBits_le (z : Sizing) (k : Nat) : heldBits z k ≤ 2 ^ k := by
  cases z with
  | ref => exact le_rfl
  | fit => exact (Nat.sub_le _ _).trans (Nat.sub_le _ _)

theorem heldBits_mono (z : Sizing) {j k : Nat} (h : j ≤ k) : heldBits z j ≤ heldBits z k := by
  have hpow : 2 ^ j ≤ 2 ^ k := Nat.pow_le_pow_right Nat.two_pos h
  cases z with
  | ref => exact hpow
  | fit =>
    have hcap := cap_mono hpow
    rwa [cap_two_pow_eq, cap_two_pow_eq] at hcap

/-! ### the size of a message -/

theorem IsLeastPow2.exists_exponent {ok : Nat → Prop} {q : Nat} (h : IsLeastPow2 ok q) :
    ∃ k, q = 2 ^ k ∧ ok (2 ^ k) ∧ ∀ j, ok (2 ^ j) → k ≤ j := by
  obtain ⟨⟨k, rfl⟩, hok, least⟩ := h
  exact ⟨k, rfl, hok, fun j hj => (Nat.pow_le_pow_iff_right Nat.one_lt_two).1 (least j hj)⟩

/-- Under both sizings the size is the least power of two that holds the message (R146 to R148). -/
theorem size_spec (z : Sizing) (n : Nat) :
    ∃ k, size z n = 2 ^ k ∧ 8 * n ≤ heldBits z k ∧ ∀ j, 8 * n ≤ heldBits z j → k ≤ j := by
  cases z with
  | ref => exact (isLeastPow2_sizeRef n).exists_exponent
  | fit => simpa only [size, heldBits, cap_two_pow_eq] using (isLeastPow2_sizeFit n).exists_exponent

theorem eight_mul_le_size (z : Sizing) (n : Nat) : 8 * n ≤ size z n := by
  obtain ⟨k, hk, hfits, -⟩ := size_spec z n
  exact hk ▸ hfits.trans (heldBits_le z k)

theorem size_mono (z : Sizing) {n n' : Nat} (h : n ≤ n') : size z n ≤ size z n' := by
  obtain ⟨k, hk, -, least⟩ := size_spec z n
  obtain ⟨k', hk', hfits', -⟩ := size_spec z n'
  rw [hk, hk']
  exact Nat.pow_le_pow_right Nat.two_pos (least k' (by omega))

/-- A message that fits PBUF has a codeword that fits CWBUF (R7, R148). -/
theorem size_le_lmax (p : Params) {n : Nat} (h : n ≤ p.maxBytes) : size p.sizing n ≤ lmax p := size_mono p.sizing h

/-- The size is `2 ^ k` when that holds the message and the power of two below it does not. -/
theorem size_eq_two_pow {z : Sizing} {n k : Nat} (fits : 8 * n ≤ heldBits z k)
    (below : k = 0 ∨ heldBits z (k - 1) < 8 * n) : size z n = 2 ^ k := by
  obtain ⟨j, hj, hfits, least⟩ := size_spec z n
  have hjk : j ≤ k := least k fits
  have hkj : k ≤ j := by
    by_contra hlt
    have := heldBits_mono z (j := j) (k := k - 1) (by omega)
    omega
  rw [hj, Nat.le_antisymm hjk hkj]

/-- FIT is REF or twice it: from 8 bits on, twice a length has at least the length as its capacity (R148). -/
theorem sizeFit_eq_sizeRef_or_twice {n : Nat} (h : 1 ≤ n) : sizeFit n = sizeRef n ∨ sizeFit n = 2 * sizeRef n := by
  obtain ⟨k, hk, hfits, least⟩ := size_spec .ref n
  obtain ⟨j, hj, hfits', least'⟩ := size_spec .fit n
  have hk3 : 3 ≤ k := by
    refine (Nat.pow_le_pow_iff_right Nat.one_lt_two).1 (?_ : 2 ^ 3 ≤ 2 ^ k)
    simp only [heldBits] at hfits
    omega
  have room : heldBits .ref k ≤ heldBits .fit (k + 1) := by
    obtain ⟨r, rfl⟩ := Nat.exists_eq_add_of_le' hk3
    have hr : r < 2 ^ r := Nat.lt_two_pow_self
    simp only [heldBits, Nat.pow_succ]
    omega
  have lower : k ≤ j := least j (hfits'.trans (heldBits_le .fit j))
  have upper : j ≤ k + 1 := least' (k + 1) (hfits.trans room)
  obtain rfl | rfl : j = k ∨ j = k + 1 := by omega
  · exact .inl (hj.trans hk.symm)
  · exact .inr (hj.trans (by rw [Nat.pow_succ, Nat.mul_comm, ← hk]; rfl))

/-- Under FIT nothing is dropped (R147, R150). -/
theorem dropCount_sizeFit (n : Nat) : dropCount n (sizeFit n) = 0 := Nat.sub_eq_zero_of_le (isLeastPow2_sizeFit n).2.1

/-! ### the bands of R146 and R147 -/

/-- The bands of message lengths with one size that R146 and R147 list: first length, last length, and the exponent of
the size. -/
def sizeBands : Sizing → List (Nat × Nat × Nat)
  | .ref => [(0, 0, 0), (1, 1, 3), (2, 2, 4), (3, 4, 5), (5, 8, 6), (9, 16, 7), (17, 32, 8), (33, 64, 9), (65, 128, 10),
      (129, 256, 11), (257, 512, 12), (513, 1024, 13), (1025, 2047, 14)]
  | .fit => [(0, 0, 0), (1, 1, 4), (2, 3, 5), (4, 7, 6), (8, 15, 7), (16, 30, 8), (31, 62, 9), (63, 126, 10),
      (127, 254, 11), (255, 510, 12), (511, 1022, 13), (1023, 2046, 14), (2047, 2047, 15)]

/-- The size of a band holds its last length, and the power of two below it does not hold its first. -/
theorem sizeBands_bracket {z : Sizing} : ∀ b ∈ sizeBands z,
    8 * b.2.1 ≤ heldBits z b.2.2 ∧ (b.2.2 = 0 ∨ heldBits z (b.2.2 - 1) < 8 * b.1) := by
  cases z <;> decide

theorem size_of_mem_sizeBands {z : Sizing} {b : Nat × Nat × Nat} (hb : b ∈ sizeBands z) {n : Nat} (hfirst : b.1 ≤ n)
    (hlast : n ≤ b.2.1) : size z n = 2 ^ b.2.2 := by
  obtain ⟨fits, below⟩ := sizeBands_bracket b hb
  exact size_eq_two_pow (by omega) (below.imp_right fun h => by omega)

/-- The same, for the rows as the spec writes them, with the size in the place of its exponent. -/
theorem size_of_mem_rows {z : Sizing} {b : Nat × Nat × Nat}
    (hb : b ∈ (sizeBands z).map fun b => (b.1, b.2.1, 2 ^ b.2.2)) {n : Nat} (hfirst : b.1 ≤ n) (hlast : n ≤ b.2.1) :
    size z n = b.2.2 := by
  obtain ⟨b', hb', rfl⟩ := List.mem_map.1 hb
  exact size_of_mem_sizeBands hb' hfirst hlast

/-- The bands of REF cover every length up to 2047. -/
theorem exists_band_ref {n : Nat} (h : n ≤ 2047) : ∃ b ∈ sizeBands .ref, b.1 ≤ n ∧ n ≤ b.2.1 := by
  simp only [sizeBands, List.exists_mem_cons_iff, List.not_mem_nil, false_and, exists_false]
  omega

/-- For which lengths REF drops bits (R150): in each band, those above the capacity of its size. -/
theorem dropCount_sizeRef_pos_iff {n : Nat} (h : n ≤ 2047) :
    0 < dropCount n (sizeRef n) ↔
      n ∈ [1, 2, 4, 8, 16, 31, 32, 63, 64, 127, 128, 255, 256, 511, 512, 1023, 1024, 2047] := by
  obtain ⟨b, hb, hfirst, hlast⟩ := exists_band_ref h
  have hsize : sizeRef n = 2 ^ b.2.2 := size_of_mem_sizeBands hb hfirst hlast
  rw [hsize, dropCount_two_pow]
  simp only [sizeBands, List.mem_cons, List.not_mem_nil, or_false] at hb ⊢
  obtain rfl | rfl | rfl | rfl | rfl | rfl | rfl | rfl | rfl | rfl | rfl | rfl | rfl := hb <;>
    simp only at hfirst hlast ⊢ <;> omega

/-! ### the statements -/

/-- Settles O45: each row is a band of `sizeBands`. -/
theorem sizesHaveTheListedValues : Obligations.SizesHaveTheListedValues := by
  unfold Obligations.SizesHaveTheListedValues
  exact ⟨fun _ hb _ => size_of_mem_rows (z := .ref) hb, fun _ hb _ => size_of_mem_rows (z := .fit) hb⟩

/-- Settles O46: the size is the least power of two that holds the message. -/
theorem sizesFitTheBuffer : Obligations.SizesFitTheBuffer := by
  unfold Obligations.SizesFitTheBuffer
  refine ⟨fun z n => ⟨?_, eight_mul_le_size z n⟩, fun z n k => size_mono z, fun p n => size_le_lmax p,
    fun n => sizeFit_eq_sizeRef_or_twice⟩
  obtain ⟨k, hk, -⟩ := size_spec z n
  exact ⟨k, hk⟩

/-- Settles O47: under REF the dropping lengths are found band by band, under FIT there are none. -/
theorem dropCountsTheBitsThatDoNotFit : Obligations.DropCountsTheBitsThatDoNotFit := by
  unfold Obligations.DropCountsTheBitsThatDoNotFit
  refine ⟨fun n L => ?_, dropCount_sizeFit, fun n => dropCount_sizeRef_pos_iff, dropCount_two_pow 1 3,
    dropCount_two_pow 2 4, dropCount_two_pow 4 5, dropCount_two_pow 8 6, dropCount_two_pow 31 8,
    dropCount_two_pow 2047 14⟩
  unfold dropCount
  omega

end Sys2Proof.Machine
end

section
/-! PROOFS. The register window, continued: when an access is answered and when it stops the machine, what a written
PBUF word reads back as, and the idle engine. From them more statements of spec/20_memory.md, and R220. -/

namespace Sys2Proof.Machine

open Sys2Proof

/-! ### which accesses are answered -/

/-- An access inside the window always answers a next state (R70 to R77). -/
theorem takeTurn_bus_next {a : Access} {s : State}
    (h : s.params.base ≤ busAddress a ∧ busAddress a < s.params.base + 0x2000) :
    ∃ t, takeTurn (.bus a) s = .next t := by
  obtain ⟨off, haddr⟩ := Nat.exists_eq_add_of_le h.1
  have hoff : windowOffset s.params (s.params.base + off) = some off :=
    windowOffset_add s.params (show off < 0x2000 by omega)
  cases a with
  | read addr bytes =>
    obtain rfl : addr = s.params.base + off := haddr
    simp only [takeTurn, hostAccess, hoff]
    split <;> exact ⟨_, rfl⟩
  | write addr bytes v =>
    obtain rfl : addr = s.params.base + off := haddr
    simp only [takeTurn, hostAccess, hoff]
    split
    · exact ⟨_, rfl⟩
    · exact busWrite_next _ _ _

/-- An access outside the window stops the machine (log 4). -/
theorem takeTurn_bus_fault {a : Access} {s : State}
    (h : busAddress a < s.params.base ∨ s.params.base + 0x2000 ≤ busAddress a) :
    takeTurn (.bus a) s = .fault .outsideWindow := by
  have outside : windowOffset s.params (busAddress a) = none := by
    refine if_neg ?_
    simp only [Config.windowBytes]
    omega
  cases a with
  | read addr bytes => simp only [takeTurn, hostAccess, show windowOffset s.params addr = none from outside]
  | write addr bytes v => simp only [takeTurn, hostAccess, show windowOffset s.params addr = none from outside]

/-- Something stands at every mapped offset (R71). -/
theorem exists_locate {p : Params} (hwf : p.wf = true) {off : Nat} (h4 : off % 4 = 0)
    (h : off < 0x020 ∨ (0x400 ≤ off ∧ off < 0x400 + 4 * pbufWords p) ∨
      (0x1000 ≤ off ∧ off < 0x1000 + 4 * cwbufWords p)) : ∃ l, locate p off = some l ∧ off < 0x2000 := by
  have hpw := pbufWords_le hwf
  have hcww := cwbufWords_le hwf
  obtain h | h | h := h
  · obtain rfl | rfl | rfl | rfl | rfl | rfl | rfl | rfl : off = 0x000 ∨ off = 0x004 ∨ off = 0x008 ∨ off = 0x00C ∨
      off = 0x010 ∨ off = 0x014 ∨ off = 0x018 ∨ off = 0x01C := by omega
    all_goals exact ⟨_, rfl, by decide⟩
  · obtain ⟨j, rfl⟩ : ∃ j, off = 0x400 + 4 * j := ⟨(off - 0x400) / 4, by omega⟩
    exact ⟨_, locate_pbuf p (by omega) hwf, by omega⟩
  · obtain ⟨w, rfl⟩ : ∃ w, off = 0x1000 + 4 * w := ⟨(off - 0x1000) / 4, by omega⟩
    exact ⟨_, locate_cwbuf p (by omega) hwf, by omega⟩

/-! ### the response to a write -/

theorem presentWord_resp {v : Word} {s t : State} (h : presentWord v s = .next t) : t.resp = s.resp := by
  obtain ⟨-, rfl⟩ | ⟨-, -, rfl⟩ | ⟨-, i, -, hx⟩ := presentWord_cases h
  · rfl
  · rfl
  · obtain ⟨-, rfl⟩ | ⟨-, -, -, rfl⟩ | ⟨-, -, -, rfl⟩ | ⟨-, -, -, rfl⟩ := exec_cases hx <;> rfl

theorem operandWrite_resp {w s : State} (h : w.resp = s.resp) : (operandWrite w s).resp = s.resp := by
  obtain ⟨-, hw⟩ | ⟨-, hw⟩ := operandWrite_cases w s
  · rw [hw, raiseFlag_resp]
  · rw [hw, h]

/-- A write of a location, performed, ignored or refused, is answered with a normal response (R75, R77). -/
theorem busWrite_resp {l : Location} {v : Word} {s t : State} (h : busWrite l v s = .next t) : t.resp = some .ok := by
  have operand {w : State} (hw : w.resp = some .ok)
      (h : Host.Outcome.next (φ := Fault) (ρ := Refusal) (operandWrite w (respond .ok s)) = .next t) :
      t.resp = some .ok :=
    Host.Outcome.next.inj h ▸ operandWrite_resp hw
  cases l with
  | cmd => exact presentWord_resp h
  | lenIn => exact operand rfl h
  | plen => exact operand rfl h
  | pbuf j => exact operand rfl h
  | _ => obtain rfl := Host.Outcome.next.inj h; rfl

/-! ### lanes -/

/-- Two words with the same four lanes are the same. -/
theorem eq_of_lanes {v w : Word} (h : ∀ t < 4, lane v t = lane w t) : v = w := by
  refine BitVec.eq_of_getLsbD_eq fun i hi => ?_
  have hbit := congrArg (·.getLsbD (i % 8)) (h (i / 8) (by omega))
  simpa [lane, BitVec.getLsbD_extractLsb', Nat.mod_lt, Nat.div_add_mod] using hbit

/-- A PBUF word whose four bytes are the lanes of `v` reads as `v` (R76, R78). -/
theorem readValue_pbuf_of_lanes {s : State} {j : Nat} {v : Word}
    (h : ∀ t < 4, s.pbuf.read (4 * j + t) = some (lane v t)) : readValue s (.pbuf j) = v := by
  refine eq_of_lanes fun t ht => ?_
  rw [lane_readValue_pbuf s j ht, h t ht, Option.getD_some]

/-! ### the statements -/

/-- Settles O21: something stands at each of these offsets, and its write is answered normally. -/
theorem mappedAccessesAreAnswered : Obligations.MappedAccessesAreAnswered := by
  unfold Obligations.MappedAccessesAreAnswered
  intro s rest off v hwf h4 hmapped
  obtain ⟨l, hl, hw⟩ := exists_locate hwf h4 hmapped
  obtain ⟨t, ht⟩ := busWrite_next l v (s.left rest)
  exact ⟨⟨_, readValue s l, step_rd_location s rest h4 hw hl, rfl⟩,
    t, (step_wr s rest v h4 hw hl).trans ht, busWrite_resp ht⟩

/-- Settles O22: the engine and reset always answer a next state, and an access by where its address lies. -/
theorem onlyAccessesOutsideTheWindowStop : Obligations.OnlyAccessesOutsideTheWindowStop := by
  unfold Obligations.OnlyAccessesOutsideTheWindowStop
  refine fun s => ⟨fun hwindow => ?_, fun a rest hs houtside => ?_⟩
  · cases hs : s.sched with
    | nil => exact ⟨_, step_of_nothing_scheduled hs⟩
    | cons e rest =>
      rw [step_of_sched hs]
      cases e with
      | bus a => exact takeTurn_bus_next (s := s.left rest) (hwindow a rest hs)
      | engine => exact ⟨_, rfl⟩
      | reset => exact ⟨_, rfl⟩
  · rw [step_of_sched hs]
    exact takeTurn_bus_fault (s := s.left rest) houtside

/-- Settles O28: the write leaves its lanes in the four bytes, and the read puts them together again. -/
theorem writtenPbufWordReadsBack : Obligations.WrittenPbufWordReadsBack := by
  unfold Obligations.WrittenPbufWordReadsBack
  intro s rest v j hwf hj hidle
  have written : ∀ k < 4, (s.pbuf.writeWord j v).read (4 * j + k) = some (lane v k) := fun k hk =>
    Memory.read_writeWord_lane s.pbuf j v hk
  refine ⟨_, step_wr_pbuf_idle s _ v hwf hj ((busy_eq_false_iff s).2 hidle), written, ?_⟩
  have read := step_rd_pbuf (storePbuf j v (respond .ok (s.left (rd s.params (0x400 + 4 * j) :: rest)))) rest hwf hj
  rw [State.facing_eq_self rfl] at read
  exact ⟨_, read, congrArg (fun x => some (Response.data x)) (readValue_pbuf_of_lanes written)⟩

/-- Settles O29: with PEND empty the engine's turn is the identity, whether scheduled or not. -/
theorem idleHseDoesNothing : Obligations.IdleHseDoesNothing := by
  unfold Obligations.IdleHseDoesNothing
  intro s rest hidle
  exact ⟨congrArg Host.Outcome.next (engineTurn_empty (s := s.left rest) hidle),
    congrArg Host.Outcome.next (engineTurn_empty (s := s.left []) hidle)⟩

end Sys2Proof.Machine
end

section
/-! PROOFS. The whole machine: what a turn does to the flags, the operands and the outputs, the two invariants with
their base case, and that a pending command completes. -/

namespace Sys2Proof.Machine

open Sys2Proof

/-! ### the turn of a step -/

/-- A step is the turn at the head of the schedule, or the engine's when there is none. -/
theorem step_turnEffect {s t : State} (h : step s = .next t) : TurnEffect (s.left s.sched.tail) s.sched.head? t := by
  obtain ⟨hs, ht⟩ | ⟨e, rest, hs, ht⟩ := step_turn h
  · have same : s.left s.sched.tail = s := by rw [State.left, hs, List.tail_nil, ← hs]
    rwa [same, hs]
  · rwa [hs]

theorem eq_nil_or_engine_of_head? {l : List Event} (h : l.head? = none ∨ l.head? = some .engine) :
    l = [] ∨ ∃ rest, l = .engine :: rest :=
  h.imp List.head?_eq_none_iff.1 fun h => ⟨l.tail, List.eq_cons_of_mem_head? h⟩

theorem TurnEffect.params_kept {s t : State} {e : Option Event} (h : TurnEffect s e t) : t.params = s.params := by
  cases h with
  | complete he hp =>
    obtain ⟨hparams, -⟩ := complete_frame _ s
    exact hparams
  | _ => rfl

theorem TurnEffect.sched_kept {s t : State} {e : Option Event} (h : TurnEffect s e t) : t.sched = s.sched := by
  cases h with
  | complete he hp =>
    obtain ⟨-, -, -, -, hsched, -⟩ := complete_frame _ s
    exact hsched
  | _ => rfl

/-! ### flags -/

/-- For every turn there is a flag such that the turn sets no other one (R210). -/
theorem TurnEffect.raises_one {s t : State} {e : Option Event} (h : TurnEffect s e t) :
    ∃ g, ∀ f, f ≠ g → getFlag f t.flags = true → getFlag f s.flags = true := by
  have raised (g : EventFlag) : ∀ f, f ≠ g → getFlag f (setFlag g s.flags) = true → getFlag f s.flags = true :=
    fun f hf hset => by rwa [getFlag_setFlag_other hf] at hset
  cases h with
  | complete he hp => exact ⟨.trunc, fun f hf hset => by rwa [getFlag_complete _ s hf] at hset⟩
  | reset => exact ⟨.eIll, fun f _ hset => by cases f <;> cases hset⟩
  | busyWrite v hoff hb => exact ⟨.eBusy, raised .eBusy⟩
  | illegal hd hp => exact ⟨.eIll, raised .eIll⟩
  | hdrOverflow hd hp hr => exact ⟨.eHdrOvf, raised .eHdrOvf⟩
  | payloadLength hd hi hp hr => exact ⟨.ePlen, raised .ePlen⟩
  | accepted hd hp hl hn => exact ⟨.eIll, fun f _ hset => by rwa [accept_flags, getFlag_done_update] at hset⟩
  | status v =>
    refine ⟨.eIll, fun f _ hset => ?_⟩
    rw [writeStatus_flags, getFlag_clearFlags, Bool.and_eq_true] at hset
    exact hset.1
  | _ => exact ⟨.eIll, fun _ _ => id⟩

/-! ### operands and outputs -/

/-- With a command pending a turn leaves it and its operands, or it is the engine's or a reset and leaves PEND empty
(R180, R182). -/
theorem TurnEffect.operands_held {s t : State} {e : Option Event} {q : Pending} (h : TurnEffect s e t)
    (hq : s.pend = some q) :
    (t.pend = some q ∧ t.lenIn = s.lenIn ∧ t.plen = s.plen ∧ t.pbuf = s.pbuf) ∨
    (t.pend = none ∧ (e = none ∨ e = some .engine ∨ e = some .reset)) := by
  have busy_not_idle (hp : s.pend = none) : False := by
    rw [hq] at hp
    cases hp
  cases h with
  | complete he hp => exact .inr ⟨(complete_ends _ s).1, he.imp_right .inl⟩
  | reset => exact .inr ⟨rfl, .inr (.inr rfl)⟩
  | accepted hd hp hl hn => exact (busy_not_idle hp).elim
  | lenIn v hp => exact (busy_not_idle hp).elim
  | plen v hp => exact (busy_not_idle hp).elim
  | pbuf v hj hp => exact (busy_not_idle hp).elim
  | _ => exact .inl ⟨hq, rfl, rfl, rfl⟩

/-- What a turn does to the outputs: nothing, unless it is a completion or a reset (R83). -/
theorem TurnEffect.output_cases {s t : State} {e : Option Event} (h : TurnEffect s e t) :
    (t.hdrOut = s.hdrOut ∧ t.cwLen = s.cwLen ∧ t.cwDrop = s.cwDrop ∧ t.cwb = s.cwb) ∨
    (∃ q, s.pend = some q ∧ (e = none ∨ e = some .engine) ∧ t = Machine.complete q s) ∨
    (e = some .reset ∧ t = applyReset s) := by
  cases h with
  | complete he hp => exact .inr (.inl ⟨_, hp, he, rfl⟩)
  | reset => exact .inr (.inr ⟨rfl, rfl⟩)
  | _ => exact .inl ⟨rfl, rfl, rfl, rfl⟩

/-! ### the registers stay legal -/

section Legal

variable {s : State}

theorem RegistersLegal.maxBytes_le (h : RegistersLegal s) : s.params.maxBytes ≤ 2047 :=
  ((wf_iff s.params).1 h.params).2.1

/-- Flags that set neither DONE nor TRUNC keep the registers legal. -/
theorem RegistersLegal.update_flags (h : RegistersLegal s) {f : Flags} (hdone : f.done = true → s.flags.done = true)
    (htrunc : f.trunc = true → s.flags.trunc = true) : RegistersLegal { s with flags := f } :=
  { h with
    done_idle := fun hb => Bool.eq_false_iff.2 fun hf => Bool.eq_false_iff.1 (h.done_idle hb) (hdone hf)
    fit_drops_nothing := fun hfit =>
      (h.fit_drops_nothing hfit).imp_right fun htr =>
        Bool.eq_false_iff.2 fun hf => Bool.eq_false_iff.1 htr (htrunc hf) }

theorem RegistersLegal.raiseFlag (h : RegistersLegal s) {f : EventFlag} (hf : f ≠ .trunc) :
    RegistersLegal (raiseFlag f s) := by
  refine h.update_flags (f := setFlag f s.flags) (fun hd => by rwa [setFlag_done] at hd) fun ht => ?_
  exact (getFlag_setFlag_other (f := .trunc) hf.symm s.flags).symm.trans ht

theorem RegistersLegal.writeStatus (h : RegistersLegal s) (v : Word) : RegistersLegal (writeStatus v s) :=
  h.update_flags (fun hd => ((Bool.and_eq_true _ _).mp hd).1) (fun ht => ((Bool.and_eq_true _ _).mp ht).1)

theorem RegistersLegal.respond (h : RegistersLegal s) (r : Response) : RegistersLegal (respond r s) := { h with }

theorem RegistersLegal.left (h : RegistersLegal s) (rest : List Event) : RegistersLegal (s.left rest) := { h with }

/-- An accepted command has passed its range check (R170). -/
theorem RegistersLegal.accept (h : RegistersLegal s) {i : Instr}
    (hl : i = .encHdr → s.lenIn.toNat ≤ Config.maxLen) (hn : i ≠ .encHdr → s.plen.toNat ≤ s.params.maxBytes) :
    RegistersLegal (accept i s) :=
  { h with
    pend := by
      cases i with
      | encHdr => exact decide_eq_true (hl rfl)
      | encPay => exact decide_eq_true (hn (by decide))
      | encMsg => exact decide_eq_true (hn (by decide))
    done_idle := fun _ => rfl }

theorem RegistersLegal.storePbuf (h : RegistersLegal s) {j : Nat} (hj : j < pbufWords s.params) (v : Word) :
    RegistersLegal (storePbuf j v s) :=
  { h with
    pbuf_canonical := Memory.wf_writeWord h.pbuf_canonical j v
    pbuf_size := fun c hc => by
      obtain hlt | hold := Memory.mem_writeWord hc
      · exact Nat.lt_of_lt_of_le hlt (show 4 * j + 4 ≤ 4 * pbufWords s.params by omega)
      · exact h.pbuf_size c hold }

/-- Legality says nothing of HDR_OUT. -/
theorem RegistersLegal.writeHeader (h : RegistersLegal s) (len : Nat) : RegistersLegal (writeHeader len s) := by
  have update (x : BitVec 16) : RegistersLegal { s with hdrOut := x } := { h with }
  exact update (headerImage len)

/-- The payload outputs of a message that fits PBUF are legal (R46 to R48, R178). -/
theorem RegistersLegal.writePayload (h : RegistersLegal s) {n : Nat} (hn : n ≤ s.params.maxBytes) :
    RegistersLegal (writePayload n s) := by
  have hmax := h.maxBytes_le
  have hsize := size_le_lmax s.params hn
  have hlen := toNat_writePayload_cwLen s (n := n) (by omega)
  have hcwb : (Machine.writePayload n s).cwb.length = max (size s.params.sizing n) s.cwb.length := by
    rw [writePayload_cwb, List.length_append, List.length_drop, payloadEncoder, length_hBlock, length_message]
    omega
  exact
    { h with
      done_idle := fun hb => by
        rw [writePayload_flags]
        split
        · rw [setFlag_done]; exact h.done_idle hb
        · exact h.done_idle hb
      cwLen := by
        obtain ⟨k, hk, -⟩ := size_spec s.params.sizing n
        exact .inr ⟨⟨k, hlen.trans hk⟩, hlen.trans_le hsize⟩
      cwb := by
        rw [hlen, hcwb]
        exact ⟨le_max_left _ _, max_le hsize h.cwb.2⟩
      cwDrop := by
        rw [toNat_writePayload_cwDrop s (by omega)]
        exact (dropCount_le _ _).trans (Nat.mul_le_mul_left 8 hn)
      fit_drops_nothing := fun hfit => by
        have hdrop : dropCount n (size s.params.sizing n) = 0 := by
          rw [show s.params.sizing = .fit from hfit]
          exact dropCount_sizeFit n
        rw [writePayload_cwDrop, writePayload_flags, hdrop]
        exact ⟨rfl, (h.fit_drops_nothing hfit).2⟩ }

theorem RegistersLegal.finish (h : RegistersLegal s) : RegistersLegal (finish s) :=
  { h with
    pend := rfl
    done_idle := fun hb => by cases hb }

theorem RegistersLegal.complete (h : RegistersLegal s) {q : Pending} (hq : s.pend = some q) :
    RegistersLegal (complete q s) := by
  have hlegal : pendingLegal s.params q = true := by simpa [hq] using h.pend
  obtain ⟨c, o⟩ := q
  cases c with
  | encHdr => exact (h.writeHeader o.toNat).finish
  | encPay => exact (h.writePayload (of_decide_eq_true hlegal)).finish
  | encMsg => exact ((h.writePayload (of_decide_eq_true hlegal)).writeHeader o.toNat).finish

end Legal

/-- The state after reset has legal registers (R52). -/
theorem registersLegal_resetOf {p : Params} (h : p.wf = true) : RegistersLegal (State.resetOf p) where
  params := h
  pbuf_canonical := Memory.wf_resetOf p
  pbuf_size := nofun
  pend := rfl
  done_idle := nofun
  cwLen := .inl rfl
  cwb := ⟨Nat.zero_le _, Nat.zero_le _⟩
  cwDrop := Nat.zero_le _
  fit_drops_nothing := fun _ => ⟨rfl, rfl⟩

/-- No turn leaves the legal register values. -/
theorem TurnEffect.registersLegal {s t : State} {e : Option Event} (h : TurnEffect s e t) (hs : RegistersLegal s) :
    RegistersLegal t := by
  have answered := hs.respond .ok
  cases h with
  | idle he hp => exact hs
  | complete he hp => exact hs.complete hp
  | reset => exact { registersLegal_resetOf hs.params with }
  | busError a => exact hs.respond .busError
  | read hl => exact { hs with }
  | ignored v hoff => exact answered
  | busyWrite v hoff hb => exact answered.raiseFlag (by decide)
  | illegal hd hp => exact answered.raiseFlag (by decide)
  | hdrOverflow hd hp hr => exact answered.raiseFlag (by decide)
  | payloadLength hd hi hp hr => exact answered.raiseFlag (by decide)
  | accepted hd hp hl hn => exact answered.accept hl hn
  | status v => exact answered.writeStatus v
  | lenIn v hp => exact { hs with }
  | plen v hp => exact { hs with }
  | pbuf v hj hp => exact answered.storePbuf hj v

/-! ### the outputs stay codewords -/

theorem OutputsAreCodewords.of_same_outputs {s t : State} (h : OutputsAreCodewords s) (hparams : t.params = s.params)
    (hhdr : t.hdrOut = s.hdrOut) (hlen : t.cwLen = s.cwLen) (hdrop : t.cwDrop = s.cwDrop) (hcwb : t.cwb = s.cwb) :
    OutputsAreCodewords t := by
  unfold OutputsAreCodewords
  rwa [hparams, hhdr, hlen, hdrop, hcwb]

theorem OutputsAreCodewords.writeHeader {s : State} (h : OutputsAreCodewords s) {len : Nat}
    (hlen : len ≤ Config.maxLen) : OutputsAreCodewords (writeHeader len s) := by
  have update (x : BitVec 16) (hx : x = headerImage len) : OutputsAreCodewords { s with hdrOut := x } :=
    ⟨⟨len, hlen, hx⟩, h.2⟩
  exact update (headerImage len) rfl

theorem OutputsAreCodewords.writePayload {s : State} (h : OutputsAreCodewords s) {n : Nat}
    (hn : n ≤ s.params.maxBytes) : OutputsAreCodewords (writePayload n s) := by
  have hlen : (payloadEncoder s.params.sizing (message s n)).length = size s.params.sizing n := by
    rw [payloadEncoder, length_hBlock, length_message]
  refine ⟨h.1, .inr ⟨message s n, ?_⟩⟩
  rw [length_message, writePayload_params, writePayload_cwLen, writePayload_cwDrop, writePayload_cwb, ← hlen,
    List.take_left]
  exact ⟨hn, rfl, rfl, rfl⟩

theorem OutputsAreCodewords.finish {s : State} (h : OutputsAreCodewords s) : OutputsAreCodewords (finish s) :=
  h.of_same_outputs rfl rfl rfl rfl rfl

theorem OutputsAreCodewords.complete {s : State} (h : OutputsAreCodewords s) (hs : RegistersLegal s) {q : Pending}
    (hq : s.pend = some q) : OutputsAreCodewords (complete q s) := by
  have hlegal : pendingLegal s.params q = true := by simpa [hq] using hs.pend
  have hmax := hs.maxBytes_le
  obtain ⟨c, o⟩ := q
  cases c with
  | encHdr => exact (h.writeHeader (of_decide_eq_true hlegal)).finish
  | encPay => exact (h.writePayload (of_decide_eq_true hlegal)).finish
  | encMsg =>
    have hn : o.toNat ≤ s.params.maxBytes := of_decide_eq_true hlegal
    exact ((h.writePayload hn).writeHeader (hn.trans hmax)).finish

theorem headerImage_zero : headerImage 0 = 0 := by decide

theorem outputsAreCodewords_resetOf (p : Params) : OutputsAreCodewords (State.resetOf p) :=
  ⟨⟨0, Nat.zero_le _, headerImage_zero.symm⟩, .inl ⟨rfl, rfl⟩⟩

/-- Every turn keeps the outputs codewords: a completion writes some, a reset clears them, and no other turn touches
them. -/
theorem TurnEffect.outputsAreCodewords {s t : State} {e : Option Event} (h : TurnEffect s e t) (hs : RegistersLegal s)
    (ho : OutputsAreCodewords s) : OutputsAreCodewords t := by
  obtain ⟨hhdr, hlen, hdrop, hcwb⟩ | ⟨q, hq, -, rfl⟩ | ⟨-, rfl⟩ := h.output_cases
  · exact ho.of_same_outputs h.params_kept hhdr hlen hdrop hcwb
  · exact ho.complete hs hq
  · exact outputsAreCodewords_resetOf s.params

/-! ### completion is eventual -/

theorem run_succ_of_step (M : Host.Core) {s t : M.State} (h : M.step s = .next t) (k : Nat) :
    M.run (k + 1) s = M.run k t := by
  rw [Host.Core.run, h]

/-- A scheduled host access inside the window leaves a pending command pending, and the rest of the schedule. -/
theorem step_access_pending {s : State} {a : Access} {rest : List Event} {q : Pending} (hs : s.sched = .bus a :: rest)
    (hin : inWindow s.params (.bus a) = true) (hq : s.pend = some q) :
    ∃ t, step s = .next t ∧ t.pend = some q ∧ t.sched = rest ∧ t.params = s.params := by
  obtain ⟨t, ht⟩ := takeTurn_bus_next (s := s.left rest) (of_decide_eq_true hin)
  have turn := takeTurn_turn ht
  refine ⟨t, (step_of_sched hs).trans ht, ?_, turn.sched_kept, turn.params_kept⟩
  obtain ⟨hkept, -⟩ | ⟨-, he⟩ := turn.operands_held (q := q) hq
  · exact hkept
  · obtain he | he | he := he <;> cases he

/-- The engine's turn, scheduled or not, completes a pending command (R174, R179). -/
theorem step_completes {s : State} {q : Pending} (hs : s.sched = [] ∨ ∃ rest, s.sched = .engine :: rest)
    (hq : s.pend = some q) : ∃ u, step s = .next u ∧ u.pend = none ∧ u.flags.done = true := by
  obtain hs | ⟨rest, hs⟩ := hs
  · exact ⟨_, (step_of_nothing_scheduled hs).trans (congrArg _ (engineTurn_full hq)), complete_ends q s⟩
  · exact ⟨_, step_engine_of_sched hs hq, complete_ends q _⟩

/-! ### the statements -/

/-- Settles O48: every turn keeps the legal register values (`TurnEffect.registersLegal`). -/
theorem registersStayLegal : Obligations.RegistersStayLegal := by
  unfold Obligations.RegistersStayLegal
  intro s t hs h
  have turn := step_turnEffect h
  exact ⟨turn.registersLegal (hs.left _), turn.params_kept⟩

/-- Settles O50: every turn keeps the outputs codewords (`TurnEffect.outputsAreCodewords`). -/
theorem outputsStayCodewords : Obligations.OutputsStayCodewords := by
  unfold Obligations.OutputsStayCodewords
  intro s t hs ho h
  exact (step_turnEffect h).outputsAreCodewords (hs.left _) (ho.of_same_outputs rfl rfl rfl rfl rfl)

/-- Settles O49: the base case of both invariants. -/
theorem resetIsLegal : Obligations.ResetIsLegal := by
  unfold Obligations.ResetIsLegal
  exact ⟨fun p hwf => ⟨registersLegal_resetOf hwf, outputsAreCodewords_resetOf p⟩, registersLegal_resetOf (by decide)⟩

/-- Settles O52: two flags that a step raises are both the one of `TurnEffect.raises_one`. -/
theorem noStepRaisesTwoFlags : Obligations.NoStepRaisesTwoFlags := by
  unfold Obligations.NoStepRaisesTwoFlags
  intro s t f g h hf hf' hg hg'
  obtain ⟨raised, hraised⟩ := (step_turnEffect h).raises_one
  have is_raised {f : EventFlag} (hf : getFlag f s.flags = false) (hf' : getFlag f t.flags = true) : f = raised := by
    by_contra hne
    exact absurd ((hraised f hne hf').symm.trans hf) (by decide)
  rw [is_raised hf hf', is_raised hg hg']

/-- Settles O54: `TurnEffect.operands_held`, with the turn read from the schedule. -/
theorem operandsAreHeldWhileBusy : Obligations.OperandsAreHeldWhileBusy := by
  unfold Obligations.OperandsAreHeldWhileBusy
  intro s t q hq h
  refine ((step_turnEffect h).operands_held (q := q) hq).imp_right fun ⟨hempty, he⟩ => ⟨hempty, ?_⟩
  obtain he | he | he := he
  · exact .inl (List.head?_eq_none_iff.1 he)
  · exact .inr ⟨_, .inl (List.eq_cons_of_mem_head? he)⟩
  · exact .inr ⟨_, .inr (List.eq_cons_of_mem_head? he)⟩

/-- Settles O55: `TurnEffect.output_cases`, with the turn read from the schedule. -/
theorem outputsChangeOnlyByCompletionOrReset : Obligations.OutputsChangeOnlyByCompletionOrReset := by
  unfold Obligations.OutputsChangeOnlyByCompletionOrReset
  intro s t h
  obtain hkept | ⟨q, hq, he, -⟩ | ⟨he, -⟩ := (step_turnEffect h).output_cases
  · exact .inl hkept
  · exact .inr (.inl ⟨(busy_eq_true_iff s).2 ⟨q, hq⟩, eq_nil_or_engine_of_head? he⟩)
  · exact .inr (.inr ⟨_, List.eq_cons_of_mem_head? he⟩)

/-- Settles O57: by induction on the schedule, host accesses pass until the engine's turn, which comes at the latest
when nothing is scheduled. -/
theorem completionIsEventual : Obligations.CompletionIsEventual := by
  unfold Obligations.CompletionIsEventual
  intro s q hq hsched
  generalize hl : s.sched = l at hsched ⊢
  induction l generalizing s with
  | nil => exact ⟨0, le_rfl, s, rfl, hq, step_completes (.inl hl) hq⟩
  | cons e rest ih =>
    obtain ⟨hin, hne⟩ := hsched e (List.mem_cons_self ..)
    cases e with
    | engine => exact ⟨0, Nat.zero_le _, s, rfl, hq, step_completes (.inr ⟨rest, hl⟩) hq⟩
    | reset => exact absurd rfl hne
    | bus a =>
      obtain ⟨s', hstep, hq', hl', hparams⟩ := step_access_pending hl hin hq
      obtain ⟨k, hk, t, hrun, hdone⟩ := ih s' hq' hl' fun e he => hparams ▸ hsched e (List.mem_cons_of_mem _ he)
      exact ⟨k + 1, Nat.succ_le_succ hk, t, (run_succ_of_step Sys2Proof.core hstep k).trans hrun, hdone⟩

end Sys2Proof.Machine
end

section
/-! PROOFS. Noninterference: the CWBUF storage above CW_LEN decides nothing, and a payload encode depends on the written
bytes alone. -/

namespace Sys2Proof.Machine

open Sys2Proof

/-! ### what a payload completion leaves -/

/-- The codeword bits a payload completion leaves below CW_LEN are those of its message, whatever CWBUF held (R176). -/
theorem bitAt_writePayload_cwb_below (s : State) (n : Nat) {i : Nat} (hi : i < (writePayload n s).cwLen.toNat) :
    bitAt (writePayload n s).cwb i = bitAt (hBlock (size s.params.sizing n) (msgBits (message s n))) i := by
  rw [writePayload_cwLen, BitVec.toNat_ofNat] at hi
  exact bitAt_writePayload_cwb s n (hi.trans_le (Nat.mod_le _ _))

/-- CW_LEN and CWBUF after either payload command's completion (R176, R177). -/
theorem complete_payload_codeword (s : State) {q : Pending} (hq : q.cmd ≠ .encHdr) :
    (complete q s).cwLen = (writePayload q.operand.toNat s).cwLen ∧
    (complete q s).cwb = (writePayload q.operand.toNat s).cwb := by
  obtain ⟨c, o⟩ := q
  cases c with
  | encHdr => exact absurd rfl hq
  | encPay => exact ⟨completeEncPay_cwLen o.toNat s, completeEncPay_cwb o.toNat s⟩
  | encMsg => exact ⟨completeEncMsg_cwLen o.toNat s, completeEncMsg_cwb o.toNat s⟩

/-- The message depends on the written bytes below its length alone (R158, R181). -/
theorem message_eq_of_same_bytes {s t : State} {n : Nat}
    (h : ∀ k < n, ∃ b, s.pbuf.read k = some b ∧ t.pbuf.read k = some b) : message s n = message t n := by
  refine List.map_congr_left fun k hk => ?_
  obtain ⟨b, hs, ht⟩ := h k (List.mem_range.1 hk)
  rw [byteval_eq, byteval_eq, hs, ht, Option.getD_some, Option.getD_some]

/-- The payload outputs depend on the sizing and the message alone (R158). -/
theorem samePayload_complete {s t : State} {q : Pending} (hq : q.cmd ≠ .encHdr)
    (hsizing : s.params.sizing = t.params.sizing)
    (hmsg : message s q.operand.toNat = message t q.operand.toNat) : SamePayload (complete q s) (complete q t) := by
  obtain ⟨slen, scwb⟩ := complete_payload_codeword s hq
  obtain ⟨tlen, tcwb⟩ := complete_payload_codeword t hq
  obtain ⟨sdrop, -⟩ := complete_payload s hq
  obtain ⟨tdrop, -⟩ := complete_payload t hq
  have hlen : (writePayload q.operand.toNat s).cwLen = (writePayload q.operand.toNat t).cwLen := by
    rw [writePayload_cwLen, writePayload_cwLen, hsizing]
  refine ⟨by rw [slen, tlen, hlen], by rw [sdrop, tdrop, writePayload_cwDrop, writePayload_cwDrop, hsizing],
    fun i hi => ?_⟩
  rw [slen] at hi
  rw [scwb, tcwb, bitAt_writePayload_cwb_below s _ hi, bitAt_writePayload_cwb_below t _ (hlen ▸ hi), hmsg, hsizing]

/-! ### two states that differ in CWBUF storage -/

/-- `s` with other CWBUF storage. -/
def State.withCwb (s : State) (c : List Bool) : State := { s with cwb := c }

/-- The next state of an outcome with other CWBUF storage. -/
def nextWithCwb (c : List Bool) : Host.Outcome State Fault Refusal → Host.Outcome State Fault Refusal
  | .next s => .next (s.withCwb c)
  | .fault x => .fault x
  | .refused x => .refused x

/-- What two steps must do that start in states with the same visible bits: answer next states with the same visible
bits, or stop alike. -/
def AnswerAlike (o o' : Host.Outcome State Fault Refusal) : Prop :=
  (∃ s t, o = .next s ∧ o' = .next t ∧ SameVisible s t) ∨ ∃ x, o = .fault x ∧ o' = .fault x

theorem answerAlike_next {s t : State} (h : SameVisible s t) : AnswerAlike (.next s) (.next t) :=
  .inl ⟨s, t, rfl, rfl, h⟩

/-! ### a write does not look at the storage -/

theorem accept_withCwb (i : Instr) (s : State) (c : List Bool) : accept i (s.withCwb c) = (accept i s).withCwb c := by
  cases i <;> rfl

theorem presentCommand_withCwb (i : Instr) (oor : Bool) (f : EventFlag) (s : State) (c : List Bool) :
    presentCommand i oor f (s.withCwb c) = (presentCommand i oor f s).withCwb c := by
  unfold presentCommand
  rw [apply_ite (State.withCwb · c), apply_ite (State.withCwb · c), accept_withCwb]
  rfl

theorem exec_withCwb (i : Instr) (s : State) (c : List Bool) : exec i (s.withCwb c) = nextWithCwb c (exec i s) := by
  cases i with
  | encHdr => exact congrArg Host.Outcome.next (presentCommand_withCwb .encHdr _ .eHdrOvf s c)
  | encPay => exact congrArg Host.Outcome.next (presentCommand_withCwb .encPay _ .ePlen s c)
  | encMsg => exact congrArg Host.Outcome.next (presentCommand_withCwb .encMsg _ .ePlen s c)

theorem presentWord_withCwb (v : Word) (s : State) (c : List Bool) :
    presentWord v (s.withCwb c) = nextWithCwb c (presentWord v s) := by
  cases hp : s.pend with
  | some q =>
    have hb : busy s = true := (busy_eq_true_iff s).2 ⟨q, hp⟩
    rw [presentWord_busy v hb, presentWord_busy v (s := s.withCwb c) hb]
    rfl
  | none =>
    cases hd : decode v with
    | error x =>
      rw [presentWord_illegal hd hp, presentWord_illegal (s := s.withCwb c) hd hp]
      rfl
    | ok i => rw [presentWord_legal hd hp, presentWord_legal (s := s.withCwb c) hd hp, exec_withCwb]

theorem operandWrite_withCwb (w s : State) (c : List Bool) :
    operandWrite (w.withCwb c) (s.withCwb c) = (operandWrite w s).withCwb c := by
  unfold operandWrite
  rw [apply_ite (State.withCwb · c)]
  rfl

theorem busWrite_withCwb (l : Location) (v : Word) (s : State) (c : List Bool) :
    busWrite l v (s.withCwb c) = nextWithCwb c (busWrite l v s) := by
  have operand (w : State) := congrArg Host.Outcome.next (β := Host.Outcome State Fault Refusal)
    (operandWrite_withCwb w (respond .ok s) c)
  cases l with
  | cmd => exact presentWord_withCwb v (respond .ok s) c
  | lenIn => exact operand (storeLenIn v (respond .ok s))
  | plen => exact operand (storePlen v (respond .ok s))
  | pbuf j => exact operand (storePbuf j v (respond .ok s))
  | _ => rfl

theorem takeTurn_write_withCwb (addr bytes : Nat) (v : Word) (s : State) (c : List Bool) :
    takeTurn (.bus (.write addr bytes v)) (s.withCwb c) =
      nextWithCwb c (takeTurn (.bus (.write addr bytes v)) s) := by
  simp only [takeTurn, hostAccess, show (s.withCwb c).params = s.params from rfl]
  cases windowOffset s.params addr with
  | none => rfl
  | some off =>
    dsimp only
    cases busTarget s.params off bytes with
    | none => rfl
    | some l => exact busWrite_withCwb l v s c

/-! ### a completion writes every visible bit -/

theorem SameVisible.finish {s t : State} (h : SameVisible s t) : SameVisible (finish s) (finish t) :=
  ⟨congrArg Machine.finish h.1, h.2⟩

theorem SameVisible.writeHeader {s t : State} (h : SameVisible s t) (len : Nat) :
    SameVisible (writeHeader len s) (writeHeader len t) := by
  have update (x : BitVec 16) : SameVisible { s with hdrOut := x } { t with hdrOut := x } :=
    ⟨congrArg (fun s : State => { s with hdrOut := x }) h.1, h.2⟩
  exact update (headerImage len)

/-- A payload completion writes every visible bit, and the message is not read from CWBUF (R176). -/
theorem writePayload_sameVisible (n : Nat) (s : State) (c : List Bool) :
    SameVisible (writePayload n s) (writePayload n (s.withCwb c)) := by
  refine ⟨?_, fun i hi => ?_⟩
  · simp only [writePayload]
    rfl
  · rw [bitAt_writePayload_cwb_below s n hi, bitAt_writePayload_cwb_below (s.withCwb c) n hi]
    rfl

/-! ### every turn answers alike -/

section Turns

variable {s : State} {c : List Bool} (h : ∀ i < s.cwLen.toNat, bitAt s.cwb i = bitAt c i)

include h

/-- No read shows the storage at or above CW_LEN (R47, R76). -/
theorem readValue_withCwb (l : Location) :
    readValue (s.withCwb c) l = readValue s l := by
  cases l with
  | cwbuf w =>
    have word : cwbufWord (s.withCwb c) w = cwbufWord s w := by
      refine BitVec.eq_of_getLsbD_eq fun b hb => ?_
      rw [getLsbD_cwbufWord _ w hb, getLsbD_cwbufWord s w hb]
      by_cases hlt : 32 * w + b < s.cwLen.toNat
      · exact congrArg _ (h _ hlt).symm
      · have hlt' : ¬ 32 * w + b < (s.withCwb c).cwLen.toNat := hlt
        simp only [hlt, hlt', decide_false, Bool.false_and]
    exact congrArg (outputRead s) word
  | _ => rfl

theorem takeTurn_read_alike (addr bytes : Nat) :
    AnswerAlike (takeTurn (.bus (.read addr bytes)) s) (takeTurn (.bus (.read addr bytes)) (s.withCwb c)) := by
  simp only [takeTurn, hostAccess, show (s.withCwb c).params = s.params from rfl]
  cases windowOffset s.params addr with
  | none => exact .inr ⟨_, rfl, rfl⟩
  | some off =>
    dsimp only
    cases busTarget s.params off bytes with
    | none => exact answerAlike_next ⟨rfl, h⟩
    | some l =>
      dsimp only
      rw [busRead, busRead, readValue_withCwb h]
      exact answerAlike_next ⟨rfl, h⟩

theorem takeTurn_write_alike (addr bytes : Nat) (v : Word) :
    AnswerAlike (takeTurn (.bus (.write addr bytes v)) s)
      (takeTurn (.bus (.write addr bytes v)) (s.withCwb c)) := by
  rw [takeTurn_write_withCwb]
  by_cases hin : s.params.base ≤ addr ∧ addr < s.params.base + 0x2000
  · obtain ⟨t, ht⟩ := takeTurn_bus_next (a := .write addr bytes v) hin
    obtain ⟨-, hlen, -, hcwb⟩ | ⟨q, -, he, -⟩ | ⟨he, -⟩ := (takeTurn_turn ht).output_cases
    · rw [ht]
      exact answerAlike_next ⟨rfl, by rwa [hlen, hcwb]⟩
    · obtain he | he := he <;> cases he
    · cases he
  · rw [takeTurn_bus_fault (a := .write addr bytes v) (by simp only [busAddress]; omega)]
    exact .inr ⟨_, rfl, rfl⟩

theorem engineTurn_sameVisible : SameVisible (engineTurn s) (engineTurn (s.withCwb c)) := by
  have start : SameVisible s (s.withCwb c) := ⟨rfl, h⟩
  cases hp : s.pend with
  | none => rwa [engineTurn_empty hp, engineTurn_empty (s := s.withCwb c) hp]
  | some q =>
    rw [engineTurn_full hp, engineTurn_full (s := s.withCwb c) hp]
    obtain ⟨cmd, o⟩ := q
    cases cmd with
    | encHdr => exact (start.writeHeader o.toNat).finish
    | encPay => exact (writePayload_sameVisible o.toNat s c).finish
    | encMsg => exact ((writePayload_sameVisible o.toNat s c).writeHeader o.toNat).finish

theorem takeTurn_alike (e : Event) :
    AnswerAlike (takeTurn e s) (takeTurn e (s.withCwb c)) := by
  cases e with
  | bus a =>
    cases a with
    | read addr bytes => exact takeTurn_read_alike h addr bytes
    | write addr bytes v => exact takeTurn_write_alike h addr bytes v
  | engine => exact answerAlike_next (engineTurn_sameVisible h)
  | reset => exact answerAlike_next ⟨rfl, fun _ _ => rfl⟩

theorem step_alike : AnswerAlike (step s) (step (s.withCwb c)) := by
  cases hs : s.sched with
  | nil =>
    rw [step_of_nothing_scheduled hs, step_of_nothing_scheduled (s := s.withCwb c) hs]
    exact answerAlike_next (engineTurn_sameVisible h)
  | cons e rest =>
    rw [step_of_sched hs, step_of_sched (s := s.withCwb c) hs]
    exact takeTurn_alike (s := s.left rest) h e

end Turns

/-! ### the statements -/

/-- Settles O60: turn by turn, a read shows no hidden bit, a write does not look at the storage, and a completion writes
every visible bit. -/
theorem storageAboveCwLenIsNeverVisible : Obligations.StorageAboveCwLenIsNeverVisible := by
  unfold Obligations.StorageAboveCwLenIsNeverVisible
  intro s t ⟨ht, hbits⟩
  rw [ht]
  exact step_alike hbits

/-- Settles O59: the messages are the same, and the outputs depend on nothing else. -/
theorem sameBytesGiveTheSameOutputs : Obligations.SameBytesGiveTheSameOutputs := by
  unfold Obligations.SameBytesGiveTheSameOutputs
  intro s t rest rest' q hq hs ht hsizing hbytes
  refine ⟨_, _, step_engine rest hs, step_engine rest' ht,
    samePayload_complete (s := s.left rest) (t := t.left rest') hq hsizing (message_eq_of_same_bytes hbytes), ?_⟩
  intro hmsg
  obtain ⟨c, o⟩ := q
  obtain rfl : c = .encMsg := hmsg
  rw [complete_encMsg, complete_encMsg, completeEncMsg_hdrOut, completeEncMsg_hdrOut]

end Sys2Proof.Machine
end

section
/-! PROOFS. The codewords of a length `2 ^ m`: the covering sets are the indices with a bit, so that every block passes
the parity checks of spec/40_core_functions.md section 5; from them its distance and the flat form of the overall
parity; and linearity. -/

namespace Sys2Proof.Machine

open Sys2Proof

/-! ### exclusive or over a set -/

theorem xorOver_filter (p e : Nat → Bool) (S : List Nat) : xorOver (S.filter p) e = xorOver S fun i => p i && e i := by
  induction S with
  | nil => rfl
  | cons i S ih => cases h : p i <;> simp [h, ih]

theorem xorOver_and_left (a : Bool) (S : List Nat) (e : Nat → Bool) :
    xorOver S (fun i => a && e i) = (a && xorOver S e) := by
  cases a with
  | true => simp only [Bool.true_and]
  | false => simp only [Bool.false_and, xorOver_const_false]

/-- Two exclusive ors may be taken in either order. -/
theorem xorOver_comm (S T : List Nat) (f : Nat → Nat → Bool) :
    xorOver S (fun i => xorOver T (f i)) = xorOver T fun k => xorOver S fun i => f i k := by
  induction S with
  | nil => simp [xorOver_const_false]
  | cons i S ih => simp only [xorOver_cons, ih, xorOver_xor]

/-- The exclusive or tells whether an odd number of elements is picked. -/
theorem xorOver_eq_odd (S : List Nat) (e : Nat → Bool) : xorOver S e = ((S.filter e).length % 2 == 1) := by
  induction S with
  | nil => rfl
  | cons i S ih =>
    rw [xorOver_cons, ih]
    cases h : e i with
    | false => simp [h]
    | true =>
      rw [List.filter_cons_of_pos h, List.length_cons]
      obtain h2 | h2 := Nat.mod_two_eq_zero_or_one (S.filter e).length <;> simp [h2, Nat.succ_mod_two_eq_one_iff]

/-- The exclusive or of numbers, bit by bit. -/
theorem testBit_foldr_xor (S : List Nat) (k : Nat) :
    (S.foldr (· ^^^ ·) 0).testBit k = xorOver S fun i => i.testBit k := by
  induction S with
  | nil => exact Nat.zero_testBit k
  | cons i S ih => rw [List.foldr_cons, Nat.testBit_xor, ih, xorOver_cons]

/-! ### covering sets -/

/-- The indices below `2 ^ m` with bit `k` are `2 ^ k` and what it covers (R132). -/
theorem perm_cons_cover {m k : Nat} (hk : k < m) :
    ((List.range (2 ^ m)).filter fun i => i.testBit k).Perm (2 ^ k :: cover (2 ^ k) (2 ^ m)) := by
  have hmem : 2 ^ k ∈ (List.range (2 ^ m)).filter fun i => i.testBit k := by
    simpa using Nat.pow_lt_pow_right Nat.one_lt_two hk
  have herase : ((List.range (2 ^ m)).filter fun i => i.testBit k).erase (2 ^ k) = cover (2 ^ k) (2 ^ m) := by
    rw [(List.nodup_range.filter _).erase_eq_filter, List.filter_filter, cover]
    refine List.filter_congr fun i _ => ?_
    rw [Bool.eq_iff_iff, covers_two_pow_iff, Bool.and_eq_true, bne_iff_ne]
    refine ⟨fun ⟨hne, hbit⟩ => ⟨Nat.pos_of_ne_zero ?_, hne, hbit⟩, fun ⟨_, h⟩ => h⟩
    rintro rfl
    rw [Nat.zero_testBit] at hbit
    cases hbit
  exact herase ▸ List.perm_cons_erase hmem

/-- Half of the indices below a power of two have bit `k`. -/
theorem length_filter_testBit {m k : Nat} (hk : k < m) :
    ((List.range (2 ^ m)).filter fun i => i.testBit k).length = 2 ^ m / 2 := by
  induction m with
  | zero => exact absurd hk (Nat.not_lt_zero k)
  | succ m ih =>
    rw [Nat.pow_succ, Nat.mul_two, List.range_add, List.filter_append, List.length_append, List.filter_map,
      List.length_map]
    obtain hlt | rfl := Nat.lt_or_eq_of_le (Nat.le_of_lt_succ hk)
    · have same : (List.range (2 ^ m)).filter ((fun i => i.testBit k) ∘ (2 ^ m + ·)) =
          (List.range (2 ^ m)).filter fun i => i.testBit k :=
        List.filter_congr fun i _ => Nat.testBit_two_pow_add_gt hlt i
      have even : 2 ∣ 2 ^ m := dvd_pow_self 2 (by omega)
      rw [same, ih hlt]
      omega
    · have low : (List.range (2 ^ k)).filter (fun i => i.testBit k) = [] :=
        List.filter_eq_nil_iff.2 fun i hi => by simp [Nat.testBit_lt_two_pow (List.mem_range.1 hi)]
      have high : (List.range (2 ^ k)).filter ((fun i => i.testBit k) ∘ (2 ^ k + ·)) = List.range (2 ^ k) :=
        List.filter_eq_self.2 fun i hi => by
          simp [Nat.testBit_two_pow_add_eq, Nat.testBit_lt_two_pow (List.mem_range.1 hi)]
      rw [low, high, List.length_nil, List.length_range]
      omega

theorem length_cover {m k : Nat} (hk : k < m) : (cover (2 ^ k) (2 ^ m)).length = 2 ^ m / 2 - 1 := by
  have := (perm_cons_cover hk).length_eq
  rw [length_filter_testBit hk, List.length_cons] at this
  omega

/-! ### the parity checks -/

/-- The exclusive or of the bits of a block at the indices with bit `k` is 0 (R155, R156). -/
theorem xorOver_testBit_hBlock (m k : Nat) (d : List Bool) :
    xorOver (List.range (2 ^ m)) (fun i => i.testBit k && bitAt (hBlock (2 ^ m) d) i) = false := by
  by_cases hk : k < m
  · have hp : 2 ^ k ∈ ppos (2 ^ m) := mem_ppos.2 ⟨Nat.pow_lt_pow_right Nat.one_lt_two hk, isPow2_two_pow k⟩
    rw [← xorOver_filter, xorOver_perm (perm_cons_cover hk), xorOver_cons, bitAt_hBlock_parity d hp, Bool.xor_self]
  · rw [← xorOver_const_false (List.range (2 ^ m))]
    refine xorOver_congr fun i hi => ?_
    have hi : i < 2 ^ k :=
      (List.mem_range.1 hi).trans_le (Nat.pow_le_pow_right Nat.two_pos (Nat.le_of_not_lt hk))
    rw [Nat.testBit_lt_two_pow hi, Bool.false_and]

theorem range_two_pow (m : Nat) :
    List.range (2 ^ m) = 0 :: (List.range (2 ^ m)).filter fun i => decide (1 ≤ i) := by
  obtain ⟨n, hn⟩ := Nat.exists_eq_succ_of_ne_zero (Nat.two_pow_pos m).ne'
  rw [hn, List.range_succ_eq_map, List.filter_cons_of_neg (by decide), List.filter_eq_self.2]
  intro i hi
  obtain ⟨j, -, rfl⟩ := List.mem_map.1 hi
  exact decide_eq_true (Nat.succ_pos j)

/-- The exclusive or of all bits of a block is 0 (R155). -/
theorem xorOver_hBlock (m : Nat) (d : List Bool) : xorOver (List.range (2 ^ m)) (bitAt (hBlock (2 ^ m) d)) = false := by
  have hzero := bitAt_hBlockInOrder_zero (ppos (2 ^ m)) (2 ^ m) d
  rw [range_two_pow, xorOver_cons, hBlock, hzero, Bool.xor_self]

theorem syndrome_hBlock (m : Nat) (d : List Bool) : syndrome (hBlock (2 ^ m) d) = 0 := by
  refine Nat.eq_of_testBit_eq fun k => ?_
  rw [syndrome, length_hBlock, testBit_foldr_xor, xorOver_filter, Nat.zero_testBit, ← xorOver_testBit_hBlock m k d]
  simp only [Bool.and_comm]

/-! ### the distance of two codewords -/

/-- Distinct indices, an even number of them, whose exclusive or is 0 are none or at least four. -/
theorem four_le_length_of_checks {D : List Nat} (hne : D ≠ []) (hnodup : D.Nodup)
    (heven : xorOver D (fun _ => true) = false) (hzero : ∀ k, xorOver D (fun i => i.testBit k) = false) :
    4 ≤ D.length := by
  match D with
  | [] => exact absurd rfl hne
  | [_] => cases heven
  | [a, b] =>
    have hab : a = b := Nat.eq_of_testBit_eq fun k => by simpa using hzero k
    exact absurd hab (by simpa using hnodup)
  | [_, _, _] => cases heven
  | _ :: _ :: _ :: _ :: D => simp

/-- The exclusive or over the indices where two sequences differ is that of both sequences. -/
theorem xorOver_differing (S : List Nat) (e : Nat → Bool) (c c' : List Bool) :
    xorOver (S.filter fun i => bitAt c i != bitAt c' i) e =
      (xorOver S (fun i => e i && bitAt c i) ^^ xorOver S fun i => e i && bitAt c' i) := by
  rw [xorOver_filter, ← xorOver_xor]
  exact xorOver_congr fun i _ => (Bool.and_comm _ _).trans (Bool.and_xor_distrib_left _ _ _)

theorem four_le_distance {m : Nat} {d e : List Bool} (hne : hBlock (2 ^ m) d ≠ hBlock (2 ^ m) e) :
    4 ≤ distance (hBlock (2 ^ m) d) (hBlock (2 ^ m) e) := by
  rw [distance, length_hBlock]
  refine four_le_length_of_checks (fun hnil => hne ?_) (List.nodup_range.filter _) ?_ fun k => ?_
  · refine ext_bitAt (by rw [length_hBlock, length_hBlock]) fun i hi => ?_
    rw [length_hBlock] at hi
    simpa using List.filter_eq_nil_iff.1 hnil i (List.mem_range.2 hi)
  · simp only [xorOver_differing, Bool.true_and, xorOver_hBlock, Bool.xor_self]
  · rw [xorOver_differing, xorOver_testBit_hBlock, xorOver_testBit_hBlock, Bool.xor_self]

/-! ### the flat form of the overall parity -/

theorem popcount_two_pow (k : Nat) : popcount (2 ^ k) = 1 := by
  have only : (2 ^ k).testBit = (· == k) := by
    funext j
    rw [Nat.testBit_two_pow, Bool.beq_eq_decide_eq, decide_eq_decide, eq_comm]
  have hk : k < 2 ^ k := Nat.lt_two_pow_self
  rw [popcount, only, ← List.countP_eq_length_filter]
  exact List.count_eq_one_of_mem List.nodup_range (List.mem_range.2 (by omega))

/-- The bits of `i` at and above `i + 1` are 0, so that they do not count. -/
theorem xorOver_testBit_range {i n : Nat} (h : i < n) :
    xorOver (List.range n) i.testBit = (popcount i % 2 == 1) := by
  obtain ⟨r, rfl⟩ := Nat.exists_eq_add_of_le (Nat.succ_le_of_lt h)
  have high : xorOver ((List.range r).map (i.succ + ·)) i.testBit = false := by
    rw [xorOver_map, ← xorOver_const_false (List.range r)]
    refine xorOver_congr fun j _ => Nat.testBit_lt_two_pow ?_
    exact (Nat.lt_two_pow_self).trans_le (Nat.pow_le_pow_right Nat.two_pos (by omega))
  rw [List.range_add, xorOver_append, high, Bool.xor_false, xorOver_eq_odd, popcount]

/-- The exclusive or of a block's bits at the indices of odd weight is 0: it is that of all its parity checks. -/
theorem xorOver_oddWeight_hBlock (m : Nat) (d : List Bool) :
    xorOver (List.range (2 ^ m)) (fun i => (popcount i % 2 == 1) && bitAt (hBlock (2 ^ m) d) i) = false := by
  calc xorOver (List.range (2 ^ m)) (fun i => (popcount i % 2 == 1) && bitAt (hBlock (2 ^ m) d) i)
      = xorOver (List.range (2 ^ m)) (fun i =>
          xorOver (List.range (2 ^ m)) fun k => i.testBit k && bitAt (hBlock (2 ^ m) d) i) := by
        refine xorOver_congr fun i hi => ?_
        rw [← xorOver_testBit_range (List.mem_range.1 hi), Bool.and_comm, ← xorOver_and_left]
        simp only [Bool.and_comm]
    _ = xorOver (List.range (2 ^ m)) (fun _ => false) := by
        rw [xorOver_comm]
        exact xorOver_congr fun k _ => xorOver_testBit_hBlock m k d
    _ = false := xorOver_const_false _

/-- The indices of even weight are 0 and data positions, since a power of two has weight 1. -/
theorem filter_evenWeight_range (m : Nat) :
    (List.range (2 ^ m)).filter (fun i => popcount i % 2 == 0) =
      0 :: (dataPos (2 ^ m)).filter fun i => popcount i % 2 == 0 := by
  rw [dataPos, List.filter_filter, range_two_pow, List.filter_cons_of_pos (by decide),
    List.filter_cons_of_neg (by decide)]
  refine congrArg _ (List.filter_congr fun i hi => ?_)
  have h1 : 1 ≤ i := of_decide_eq_true (List.mem_filter.1 hi).2
  by_cases hp : isPow2 i = true
  · obtain ⟨k, rfl⟩ := (isPow2_iff i).1 hp
    rw [popcount_two_pow]
    rfl
  · rw [(isData_iff i).2 ⟨by omega, by simpa using hp⟩, Bool.and_true]

theorem overallParity_evenWeight (m : Nat) (d : List Bool) :
    bitAt (hBlock (2 ^ m) d) 0 =
      xorOver ((dataPos (2 ^ m)).filter fun i => popcount i % 2 == 0) (bitAt (hBlock (2 ^ m) d)) := by
  have even_part : xorOver ((List.range (2 ^ m)).filter fun i => popcount i % 2 == 0) (bitAt (hBlock (2 ^ m) d)) =
      false := by
    rw [xorOver_filter]
    calc xorOver (List.range (2 ^ m)) (fun i => (popcount i % 2 == 0) && bitAt (hBlock (2 ^ m) d) i)
        = xorOver (List.range (2 ^ m)) (fun i => bitAt (hBlock (2 ^ m) d) i ^^
            ((popcount i % 2 == 1) && bitAt (hBlock (2 ^ m) d) i)) := by
          refine xorOver_congr fun i _ => ?_
          obtain h | h := Nat.mod_two_eq_zero_or_one (popcount i) <;> simp [h]
      _ = false := by rw [xorOver_xor, xorOver_hBlock, xorOver_oddWeight_hBlock, Bool.xor_self]
  rw [filter_evenWeight_range, xorOver_cons] at even_part
  simpa using even_part

/-! ### blocks that agree, and linearity -/

/-- Bits that agree away from index 0 have the same overall parity (R135). -/
theorem xorOver_congr_of_ne_zero {L : Nat} {e f : Nat → Bool} (h : ∀ i, i ≠ 0 → e i = f i) :
    xorOver ((List.range L).filter fun i => decide (1 ≤ i)) e =
      xorOver ((List.range L).filter fun i => decide (1 ≤ i)) f :=
  xorOver_congr fun i hi => h i (Nat.one_le_iff_ne_zero.1 (of_decide_eq_true (List.mem_filter.1 hi).2))

/-- The order of the parity levels does not matter (R134). -/
theorem hBlockInOrder_eq_of_perm {ps : List Nat} {L : Nat} (h : ps.Perm (ppos L)) (d : List Bool) :
    hBlockInOrder ps L d = hBlock L d := by
  have pos (i : Nat) (hi : i ≠ 0) : bitAt (hBlockInOrder ps L d) i = bitAt (hBlock L d) i := by
    rw [hBlock, bitAt_hBlockInOrder_pos h d hi, bitAt_hBlockInOrder_pos (List.Perm.refl _) d hi]
  refine ext_bitAt (by rw [length_hBlockInOrder, length_hBlock]) fun i _ => ?_
  by_cases hi : i = 0
  · rw [hi, hBlock, bitAt_hBlockInOrder_zero, bitAt_hBlockInOrder_zero]
    exact xorOver_congr_of_ne_zero pos
  · exact pos i hi

/-- Data placement takes the data bits below the capacity and no other (R151). -/
theorem place_eq_of_take_eq {L : Nat} {d e : List Bool} (h : d.take (cap L) = e.take (cap L)) :
    place L d = place L e := by
  refine ext_bitAt (by rw [length_place, length_place]) fun i _ => ?_
  rw [bitAt_place, bitAt_place]
  split
  · next hi =>
    have below : cap i < cap L := by
      have hsucc := cap_succ i
      rw [if_pos hi.2] at hsucc
      have hmono : cap (i + 1) ≤ cap L := cap_mono hi.1
      omega
    have bit (d : List Bool) : bitAt d (cap i) = bitAt (d.take (cap L)) (cap i) := by
      simp [bitAt, below]
    rw [bit d, bit e, h]
  · rfl

theorem length_xorBits {c c' : List Bool} (h : c.length = c'.length) : (xorBits c c').length = c.length := by
  simp [xorBits, h]

theorem bitAt_xorBits {c c' : List Bool} (h : c.length = c'.length) (i : Nat) :
    bitAt (xorBits c c') i = (bitAt c i ^^ bitAt c' i) := by
  by_cases hi : i < c.length
  · simp [bitAt, xorBits, hi, h ▸ hi]
  · have hle := Nat.le_of_not_lt hi
    rw [bitAt_eq_false_of_le hle, bitAt_eq_false_of_le (h.symm.trans_le hle),
      bitAt_eq_false_of_le ((length_xorBits h).trans_le hle), Bool.xor_self]

theorem bitAt_place_xorBits (L : Nat) {d e : List Bool} (h : d.length = e.length) (i : Nat) :
    bitAt (place L (xorBits d e)) i = (bitAt (place L d) i ^^ bitAt (place L e) i) := by
  rw [bitAt_place, bitAt_place, bitAt_place]
  split
  · exact bitAt_xorBits h _
  · rfl

/-- The construction is linear, bit by bit (R157). -/
theorem bitAt_hBlock_xorBits (L : Nat) {d e : List Bool} (h : d.length = e.length) (i : Nat) :
    bitAt (hBlock L (xorBits d e)) i = (bitAt (hBlock L d) i ^^ bitAt (hBlock L e) i) := by
  have pos (i : Nat) (hi : i ≠ 0) :
      bitAt (hBlock L (xorBits d e)) i = (bitAt (hBlock L d) i ^^ bitAt (hBlock L e) i) := by
    simp only [hBlock, bitAt_hBlockInOrder_pos (List.Perm.refl _) _ hi]
    split
    · rw [← xorOver_xor]
      exact xorOver_congr fun j _ => bitAt_place_xorBits L h j
    · exact bitAt_place_xorBits L h i
  by_cases hi : i = 0
  · rw [hi, hBlock, hBlock, hBlock, bitAt_hBlockInOrder_zero, bitAt_hBlockInOrder_zero _ _ d,
      bitAt_hBlockInOrder_zero _ _ e, ← xorOver_xor]
    exact xorOver_congr_of_ne_zero pos
  · exact pos i hi

theorem hBlock_xorBits (L : Nat) {d e : List Bool} (h : d.length = e.length) :
    hBlock L (xorBits d e) = xorBits (hBlock L d) (hBlock L e) := by
  have hlen : (hBlock L d).length = (hBlock L e).length := by rw [length_hBlock, length_hBlock]
  refine ext_bitAt ?_ fun i _ => ?_
  · rw [length_xorBits hlen, length_hBlock, length_hBlock]
  · rw [bitAt_hBlock_xorBits L h, bitAt_xorBits hlen]

/-- A block of zeros is its own exclusive or with itself. -/
theorem hBlock_replicate_false (L k : Nat) : hBlock L (List.replicate k false) = List.replicate L false := by
  have zeros : List.replicate k false = xorBits (List.replicate k false) (List.replicate k false) := by
    rw [xorBits, List.zipWith_replicate, Nat.min_self, Bool.xor_self]
  refine ext_bitAt (by rw [length_hBlock, List.length_replicate]) fun i _ => ?_
  rw [zeros, bitAt_hBlock_xorBits L rfl, Bool.xor_self]
  rw [bitAt, List.getD_eq_getElem?_getD, List.getElem?_replicate]
  split <;> rfl

theorem bits11_xor (a b : Nat) : bits11 (a ^^^ b) = xorBits (bits11 a) (bits11 b) := by
  simp only [bits11, xorBits, Nat.testBit_xor, List.zipWith_map, List.zipWith_self]

/-! ### the statements -/

/-- Settles O30: `cap_two_pow_eq`, and the list by it. -/
theorem capacityOfPowersOfTwo : Obligations.CapacityOfPowersOfTwo := by
  unfold Obligations.CapacityOfPowersOfTwo
  refine ⟨cap_two_pow_eq, ?_⟩
  simp only [cap_two_pow_eq]
  decide

/-- Settles O34: a parity position is a `2 ^ k` with `k < m`, and covers the other indices with bit `k`. -/
theorem coveringSetsHoldDataPositionsOnly : Obligations.CoveringSetsHoldDataPositionsOnly := by
  unfold Obligations.CoveringSetsHoldDataPositionsOnly
  intro m p hp
  obtain ⟨hlt, hpow⟩ := mem_ppos.1 hp
  refine ⟨fun i hi => mem_dataPos.2 ⟨(mem_cover.1 hi).1, isData_of_covers hpow (mem_cover.1 hi).2⟩, ?_⟩
  obtain ⟨k, rfl⟩ := (isPow2_iff p).1 hpow
  exact length_cover ((Nat.pow_lt_pow_iff_right Nat.one_lt_two).1 hlt)

/-- Settles O35: no parity level changes a bit another level reads. -/
theorem parityLevelsMayComeInAnyOrder : Obligations.ParityLevelsMayComeInAnyOrder := by
  unfold Obligations.ParityLevelsMayComeInAnyOrder
  exact fun m ps d h => hBlockInOrder_eq_of_perm h d

/-- Settles O36: the even part of the overall check, less index 0. -/
theorem overallParityIsEvenWeightXor : Obligations.OverallParityIsEvenWeightXor := by
  unfold Obligations.OverallParityIsEvenWeightXor
  exact overallParity_evenWeight

/-- Settles O37: `syndrome_hBlock` and `xorOver_hBlock`. -/
theorem everyBlockHasZeroSyndrome : Obligations.EveryBlockHasZeroSyndrome := by
  unfold Obligations.EveryBlockHasZeroSyndrome
  exact fun m d => ⟨length_hBlock _ d, syndrome_hBlock m d, xorOver_hBlock m d⟩

/-- Settles O38: `hBlock_xorBits`, for the header with the length bits as data. -/
theorem encodingIsLinear : Obligations.EncodingIsLinear := by
  unfold Obligations.EncodingIsLinear
  refine ⟨fun m d e h => hBlock_xorBits _ h, fun m k => hBlock_replicate_false _ k, fun a b _ _ => ?_⟩
  rw [lengthEncoder, bits11_xor]
  exact hBlock_xorBits _ (by rw [length_bits11, length_bits11])

/-- Settles O39: the indices where two codewords differ pass the parity checks (`four_le_length_of_checks`). -/
theorem distinctCodewordsDifferInFourPositions : Obligations.DistinctCodewordsDifferInFourPositions := by
  unfold Obligations.DistinctCodewordsDifferInFourPositions
  exact fun m d e _ hne => four_le_distance hne

/-- Settles O42: the two lists are placed alike. -/
theorem droppedBitsInfluenceNothing : Obligations.DroppedBitsInfluenceNothing := by
  unfold Obligations.DroppedBitsInfluenceNothing
  intro m d e h
  rw [hBlock, hBlockInOrder, place_eq_of_take_eq h, ← hBlockInOrder, ← hBlock]

/-- Settles O41: the written-out exclusive ors with the length bits put in, the overall parity in its flat form. -/
theorem headerParityInTermsOfTheLength : Obligations.HeaderParityInTermsOfTheLength := by
  unfold Obligations.HeaderParityInTermsOfTheLength
  refine ⟨fun len hlen => ?_, headerImage_zero, by decide, by decide, by decide⟩
  obtain ⟨-, ⟨h3, h5, h6, h7, h9, h10, h11, h12, h13, h14, h15⟩, h1, h2, h4, h8, -⟩ :=
    headerBitsAreTheWrittenOutXors len hlen
  have h0 : bitAt (lengthEncoder len) 0 = xorOver [3, 5, 6, 9, 10, 12, 15] (bitAt (lengthEncoder len)) :=
    overallParity_evenWeight 4 (bits11 len)
  dsimp only
  rw [h1, h2, h4, h8, h0]
  simp only [xorOver_cons, xorOver_nil, h3, h5, h6, h7, h9, h10, h11, h12, h13, h14, h15, Bool.xor_false,
    Bool.xor_assoc, and_self]

end Sys2Proof.Machine
end

section
/-! PROOFS. The three commands as words and as runs: decoding and encoding, presenting a word that decodes, the frames
of acceptance and of completion, and acceptance followed by completion. -/

namespace Sys2Proof.Machine

open Sys2Proof

/-! ### table words -/

/-- A table word decodes when it fits the CMD register and decodes there (log 18). -/
theorem decodeTableWord_eq_some_iff (nbits w : Nat) (i : Instr) :
    decodeTableWord nbits w = some i ↔ w % 2 ^ nbits < 2 ^ 32 ∧ decode (tableWord nbits w) = .ok i := by
  unfold decodeTableWord tableWord
  dsimp only
  by_cases hfits : w % 2 ^ nbits < 2 ^ 32
  · rw [if_pos hfits, and_iff_right hfits]
    cases decode (BitVec.ofNat 32 (w % 2 ^ nbits)) with
    | error x => exact iff_of_false nofun nofun
    | ok j => simp only [Option.some.injEq, Except.ok.injEq]
  · rw [if_neg hfits]
    exact iff_of_false nofun fun h => hfits h.1

/-- As a table word of 32 bits, a command word is itself. -/
theorem tableWord_toNat (v : Word) : tableWord 32 v.toNat = v := by
  rw [tableWord, Nat.mod_eq_of_lt v.isLt, BitVec.ofNat_toNat, BitVec.setWidth_eq]

/-! ### acceptance -/

/-- A word that decodes is its command, busy or idle: the BUSY check before decoding and that of the command agree
(R105, R170; log 10). -/
theorem presentWord_decoded {v : Word} {i : Instr} (hd : decode v = .ok i) (s : State) :
    presentWord v s = exec i s := by
  cases hp : s.pend with
  | none => exact presentWord_legal hd hp
  | some q =>
    have hb : busy s = true := (busy_eq_true_iff s).2 ⟨q, hp⟩
    rw [presentWord_busy v hb, exec_busy i hb]

theorem exec_encHdr_accepted {s : State} (hp : s.pend = none) (h : s.lenIn.toNat ≤ 2047) :
    exec .encHdr s = .next (accept .encHdr s) := by
  rw [exec_encHdr_idle hp, if_neg (Nat.not_lt.2 h)]

theorem exec_payload_accepted {i : Instr} (hi : i ≠ .encHdr) {s : State} (hp : s.pend = none)
    (h : s.plen.toNat ≤ s.params.maxBytes) : exec i s = .next (accept i s) := by
  rw [exec_payload_idle hi hp, if_neg (Nat.not_lt.2 h)]

/-! ### acceptance, then completion -/

/-- Emptying an empty PEND changes nothing. -/
theorem State.with_pend_none {s : State} (h : s.pend = none) : { s with pend := none } = s := by
  rw [← h]

/-- The engine's turn after a command is accepted completes it, with the operand captured there (R174, R180). -/
theorem step_engine_accepted (i : Instr) (s : State) (rest : List Event) :
    step ((accept i s).facing .engine rest) =
      .next (complete { cmd := i, operand := scalarOperand i s } ((accept i s).left rest)) :=
  step_engine rest (accept_pend i s)

/-! ### the statements -/

/-- Settles O3: a word decodes to a command exactly when it is the command's (`decode_eq_ok_iff`). -/
theorem decodeAndEncodeAgree : Obligations.DecodeAndEncodeAgree := by
  unfold Obligations.DecodeAndEncodeAgree
  refine ⟨fun i _ => ?_, fun v i h => ((decode_eq_ok_iff v i).1 h).symm⟩
  have hd : decode (encode i) = .ok i := (decode_eq_ok_iff _ i).2 rfl
  refine ⟨hd, (decodeTableWord_eq_some_iff ..).2 ⟨?_, ?_⟩⟩
  · exact Nat.mod_lt _ (Nat.two_pow_pos 32)
  · rwa [tableWord_toNat]

/-- Settles O4: seven closed words. -/
theorem tableWordsDecode : Obligations.TableWordsDecode := by
  unfold Obligations.TableWordsDecode
  decide

/-- Settles O5: the turn is `presentWord` of a word that decodes, and `withFetchWord` puts that turn in front. -/
theorem stepRunsTheDecodedCommand : Obligations.StepRunsTheDecodedCommand := by
  unfold Obligations.StepRunsTheDecodedCommand
  have written (s : State) (rest : List Event) (v : Word) (i : Instr) (hd : decode v = .ok i) :
      step (s.facing (wr s.params 0x004 v) rest) = exec i { s.left rest with resp := some .ok } :=
    (step_wr_cmd s rest v).trans (presentWord_decoded hd _)
  exact ⟨written, fun s nbits w i h =>
    written s s.sched (tableWord nbits w) i ((decodeTableWord_eq_some_iff nbits w i).1 h).2⟩

/-- Settles O13: the four cases of `exec_cases`. -/
theorem commandsChangeOnlyStatusAndPend : Obligations.CommandsChangeOnlyStatusAndPend := by
  unfold Obligations.CommandsChangeOnlyStatusAndPend
  intro i s
  obtain ⟨t, ht⟩ := exec_next i s
  refine ⟨t, ht, ?_⟩
  obtain ⟨hb, rfl⟩ | ⟨hb, hi, -, rfl⟩ | ⟨hb, hi, -, rfl⟩ | ⟨hb, -, -, rfl⟩ := exec_cases ht
  all_goals refine ⟨rfl, rfl, rfl, rfl, rfl, rfl, fun _ => rfl, rfl, rfl, rfl, rfl, ?_⟩
  · exact .inl ⟨rfl, .inl ⟨Option.isSome_iff_ne_none.1 hb, rfl⟩⟩
  · exact .inl ⟨rfl, .inr (.inl ⟨(busy_eq_false_iff s).1 hb, hi, rfl⟩)⟩
  · exact .inl ⟨rfl, .inr (.inr ⟨(busy_eq_false_iff s).1 hb, hi, rfl⟩)⟩
  · exact .inr ⟨(busy_eq_false_iff s).1 hb, by rw [accept_pend, scalarOperand_eq], rfl⟩

/-- Settles O19: `complete_frame`, and for each command the outputs it does not write. -/
theorem completionsLeaveOperandsAndOtherOutputs : Obligations.CompletionsLeaveOperandsAndOtherOutputs := by
  unfold Obligations.CompletionsLeaveOperandsAndOtherOutputs
  intro s rest q hp
  obtain ⟨hparams, hlenIn, hplen, hpbuf, hsched, hresp⟩ := complete_frame q (s.left rest)
  refine ⟨_, step_engine rest hp, hparams, hlenIn, hplen, fun k => congrArg (Memory.read · k) hpbuf, hresp, hsched,
    fun hq => ?_, fun hq => ?_⟩
  · obtain ⟨c, o⟩ := q
    obtain rfl : c = .encHdr := hq
    rw [complete_encHdr, completeEncHdr_cwLen, completeEncHdr_cwDrop, completeEncHdr_cwb, completeEncHdr_flags]
    exact ⟨rfl, rfl, rfl, rfl⟩
  · obtain ⟨c, o⟩ := q
    obtain rfl : c = .encPay := hq
    exact completeEncPay_hdrOut o.toNat (s.left rest)

/-- Settles O7: acceptance captures LEN_IN, and its completion writes the header of it. -/
theorem encHdrIsAcceptedAndEncodesLenIn : Obligations.EncHdrIsAcceptedAndEncodesLenIn := by
  unfold Obligations.EncHdrIsAcceptedAndEncodesLenIn
  intro s rest hp hlen
  refine ⟨exec_encHdr_accepted hp hlen, (step_engine_accepted .encHdr s rest).trans (congrArg _ ?_)⟩
  rw [← State.with_pend_none (s := s.left rest) hp]
  rfl

/-- Settles O8: acceptance captures PLEN, and `completeEncPay_eq` is everything its completion changes. -/
theorem encPayIsAcceptedAndEncodesPbuf : Obligations.EncPayIsAcceptedAndEncodesPbuf := by
  unfold Obligations.EncPayIsAcceptedAndEncodesPbuf
  intro s rest hwf hp hplen
  have hmax := ((wf_iff s.params).1 hwf).2.1
  refine ⟨exec_payload_accepted (by decide) hp hplen, _, step_engine_accepted .encPay s rest, ?_, ?_⟩
  · exact payloadOutputs_of_writePayload (s := (accept .encPay s).left rest) (by omega) (completeEncPay_cwb ..)
      (completeEncPay_cwLen ..) (completeEncPay_cwDrop ..)
  · rw [← State.with_pend_none (s := s.left rest) hp]
    exact completeEncPay_eq s.plen.toNat ((accept .encPay s).left rest)

/-- Settles O9: as for ENC_PAY, and the completion writes the header of PLEN beside (`completeEncMsg_eq`). -/
theorem encMsgIsAcceptedAndEncodesBoth : Obligations.EncMsgIsAcceptedAndEncodesBoth := by
  unfold Obligations.EncMsgIsAcceptedAndEncodesBoth
  intro s rest hwf hp hplen
  have hmax := ((wf_iff s.params).1 hwf).2.1
  refine ⟨exec_payload_accepted (by decide) hp hplen, _, step_engine_accepted .encMsg s rest, ?_, ?_⟩
  · exact payloadOutputs_of_writePayload (s := (accept .encMsg s).left rest) (by omega) (completeEncMsg_cwb ..)
      (completeEncMsg_cwLen ..) (completeEncMsg_cwDrop ..)
  · rw [← State.with_pend_none (s := s.left rest) hp]
    have turn := completeEncMsg_eq s.plen.toNat ((accept .encMsg s).left rest)
    rw [completeEncPay_eq] at turn
    exact turn

end Sys2Proof.Machine
end
